-- ==== Sys2Proof/Word.lean ====
section
/-! DEFINITION. The word types of the Flux numeric core (spec/10_state.md R20, spec/00_scope.md R7). -/

namespace Sys2Proof

/-- A register value: every register of the block is 64 bits wide (R20). -/
abbrev Word := BitVec 64

/-- One byte lane of a host access (R52). -/
abbrev Byte := BitVec 8

/-- A binary32 pattern (R75, R140). -/
abbrev Bits32 := BitVec 32

/-- A Decimal128 operand (R76). -/
abbrev Bits128 := BitVec 128

end Sys2Proof
end

