-- ==== Sys2Proof/Machine/Registers.lean ====
section
/-! DEFINITION. The ten registers by name, their slots in the register window and who may write them (spec/10_state.md R20,
spec/00_scope.md R10). -/

namespace Sys2Proof.Machine

/-- The registers of the block (R20). Slots 10 to 15 hold none (R28). -/
inductive Reg where
  | opndLo
  | opndHi
  | cmd
  | status
  | res0
  | res1
  | res2
  | res3
  | res4
  | res5
deriving DecidableEq, Repr

/-- The slot index of a register (R10, R20). -/
def regIndex : Reg → Nat
  | .opndLo => 0
  | .opndHi => 1
  | .cmd => 2
  | .status => 3
  | .res0 => 4
  | .res1 => 5
  | .res2 => 6
  | .res3 => 7
  | .res4 => 8
  | .res5 => 9

/-- The byte offset of a register in the window (R20). -/
def regOffset (r : Reg) : Nat := 8 * regIndex r

/-- The register in a slot; none for the reserved slots (R28). -/
def regOfIndex : Nat → Option Reg
  | 0 => some .opndLo
  | 1 => some .opndHi
  | 2 => some .cmd
  | 3 => some .status
  | 4 => some .res0
  | 5 => some .res1
  | 6 => some .res2
  | 7 => some .res3
  | 8 => some .res4
  | 9 => some .res5
  | _ => none

/-- The registers a host may write (R20's access column, R55). -/
def hostWritable : Reg → Bool
  | .opndLo => true
  | .opndHi => true
  | .cmd => true
  | .status => false
  | .res0 => false
  | .res1 => false
  | .res2 => false
  | .res3 => false
  | .res4 => false
  | .res5 => false

end Sys2Proof.Machine
end

