-- ==== Sys2Proof/Syntax.lean ====
section
/-! DEFINITION. The eight commands of the block (spec/30_encoding.md R71), one constructor per row of the opcode table. A
command has no operand field: operands come from OPND_LO and OPND_HI (R70, R73). -/

namespace Sys2Proof

/-- The commands of the opcode map (R71). -/
inductive Instr where
  | rev16
  | rev32
  | rev64
  | isprime64
  | fdecomp32
  | fparts32
  | dcomp128
  | dparts128
deriving DecidableEq, Repr

end Sys2Proof
end

