-- ==== Sys2Proof/Machine/HostSyntax.lean ====
section
/-! DEFINITION. The host's program lines and pseudo-instructions as abstract syntax (spec/30_encoding.md R81, R82). What a line
does on the bus is Machine/Assembler.lean. -/

namespace Sys2Proof.Machine

/-- One line of a host program (R81): one bus access. -/
inductive HostLine where
  | st (r : Reg) (imm : Nat)
  | ld (r : Reg)
deriving DecidableEq, Repr

/-- The pseudo-instructions (R82). -/
inductive Pseudo where
  | rev16 (v : Nat)
  | rev32 (v : Nat)
  | rev64 (v : Nat)
  | isprime64 (n : Nat)
  | fdecomp32 (b : Nat)
  | fparts32 (b : Nat)
  | dcomp128 (lo hi : Nat)
  | dparts128 (lo hi : Nat)
  | cmd (i : Instr)
  | getres
deriving DecidableEq, Repr

end Sys2Proof.Machine
end

