-- ==== Sys2Proof/WellFormed.lean ====
section
/-! DEFINITION. Well-formedness. A command has no field (spec/30_encoding.md R70), so every command is well-formed; what can be
ill-formed is a host line's immediate, which must fit in 64 bits (R81). -/

namespace Sys2Proof

/-- Every command is well-formed: it has no immediate, register specifier or mode field (R70). -/
def Instr.wf : Instr → Bool
  | .rev16 => true
  | .rev32 => true
  | .rev64 => true
  | .isprime64 => true
  | .fdecomp32 => true
  | .fparts32 => true
  | .dcomp128 => true
  | .dparts128 => true

namespace Machine

/-- "`<imm>` is an unsigned integer that fits in 64 bits" (R81). -/
def immFits (imm : Nat) : Bool := decide (imm < 2 ^ 64)

/-- A host line is well-formed when its immediate fits (R81). -/
def HostLine.wf : HostLine → Bool
  | .st _ imm => immFits imm
  | .ld _ => true

/-- A pseudo-instruction is well-formed when each immediate of its expansion fits (R81, R82). -/
def Pseudo.wf : Pseudo → Bool
  | .rev16 v => immFits v
  | .rev32 v => immFits v
  | .rev64 v => immFits v
  | .isprime64 n => immFits n
  | .fdecomp32 b => immFits b
  | .fparts32 b => immFits b
  | .dcomp128 lo hi => immFits lo && immFits hi
  | .dparts128 lo hi => immFits lo && immFits hi
  | .cmd i => i.wf
  | .getres => true

end Machine

end Sys2Proof
end

