-- ==== Sys2Proof/Decode.lean ====
section
/-! DEFINITION. Byte lanes of a 64-bit access (spec/20_memory.md R52), decoding of command words (spec/30_encoding.md R70 to R72,
R79) and, after it, the encoder. -/

namespace Sys2Proof

/-- The low `n` bytes of `v`, byte 0 first: byte k is bits 8k+7:8k (R52). -/
def lanesOf : Nat → Nat → List Byte
  | 0, _ => []
  | n + 1, v => BitVec.ofNat 8 v :: lanesOf n (v / 256)

/-- The number that byte lanes stand for, byte 0 least significant (R52). -/
def natOfLanes : List Byte → Nat
  | [] => 0
  | b :: bs => b.toNat + 256 * natOfLanes bs

/-- The 64-bit value that byte lanes carry (R52). -/
def wordOfLanes (bs : List Byte) : Word := BitVec.ofNat 64 (natOfLanes bs)

/-- Why a list of bytes is no command: it is not one 64-bit word (R80), a reserved bit is set, or the opcode is unassigned
(R72). -/
inductive DecodeReject where
  | wrongLength
  | reservedBits
  | unassignedOpcode
deriving DecidableEq, Repr

/-- The opcode map (R71, R72). -/
def decodeOpcode (opc : BitVec 8) : Option Instr :=
  if opc = 0x01#8 then some .rev16
  else if opc = 0x02#8 then some .rev32
  else if opc = 0x03#8 then some .rev64
  else if opc = 0x10#8 then some .isprime64
  else if opc = 0x20#8 then some .fdecomp32
  else if opc = 0x21#8 then some .fparts32
  else if opc = 0x30#8 then some .dcomp128
  else if opc = 0x31#8 then some .dparts128
  else none

/-- The decoder: total on 64-bit words (R72). RSV is bits 63:8, OPC bits 7:0 (R70). -/
def decodeWord (w : Word) : Except DecodeReject Instr :=
  if w.extractLsb' 8 56 ≠ 0#56 then .error .reservedBits
  else
    match decodeOpcode (w.extractLsb' 0 8) with
    | some i => .ok i
    | none => .error .unassignedOpcode

/-- Decoding of bytes: total on any bytes. The one command length is eight bytes (R80), least significant first (R52). -/
def decodeBytes (bs : List Byte) : Except DecodeReject Instr :=
  if bs.length ≠ 8 then .error .wrongLength else decodeWord (wordOfLanes bs)

/-- The opcode of a command (R71). -/
def opcode : Instr → BitVec 8
  | .rev16 => 0x01#8
  | .rev32 => 0x02#8
  | .rev64 => 0x03#8
  | .isprime64 => 0x10#8
  | .fdecomp32 => 0x20#8
  | .fparts32 => 0x21#8
  | .dcomp128 => 0x30#8
  | .dparts128 => 0x31#8

/-- The command word: RSV = 0 above OPC (R70, R71). -/
def encode (i : Instr) : Word := 0#56 ++ opcode i

/-- The command word as the byte lanes of its access (R52). -/
def encodeBytes (i : Instr) : List Byte := lanesOf 8 (encode i).toNat

/-- The 64-bit word of a table row of `nbits` bits `w`: bits above `nbits` are 0 (log 18). -/
def tableWord (nbits w : Nat) : Word := BitVec.ofNat 64 (w % 2 ^ nbits)

/-- The command the decoder reads from a table row's bits, through its byte lanes. A row longer than the one command length
is no command (R80; log 18). -/
def decodeTableWord (nbits w : Nat) : Option Instr :=
  if nbits ≤ 64 then (decodeBytes (lanesOf 8 (tableWord nbits w).toNat)).toOption else none

end Sys2Proof
end

