-- ==== Sys2Proof/Config.lean ====
section
/-! DEFINITION. What an implementation fixes and the spec leaves open (spec/00_scope.md R6): P_SIG_FORM, P_BASE and the
draw NanOut. The open ones are constants with no body, so a claim about the model holds for every value of them. -/

namespace Sys2Proof.Config

/-- The two readings of FDECOMP32's `significand` (R143). -/
inductive SigForm where
  | raw
  | hiddenBit
deriving DecidableEq, Repr

/-- P_SIG_FORM of this hardware: RAW (R6, R143; log 9). -/
def pSigForm : SigForm := .raw

/-- Which 128-byte block of the host address space holds the register window. Open: the platform fixes it (R50; log 4). -/
opaque windowIndex : Nat

/-- P_BASE, the byte address of the register window, a multiple of 128 (R50). -/
def pBase : Nat := 128 * windowIndex

/-- Which NaN result of FPARTS32 a draw is for: the k of NanOut, 0 or 1 (R148). -/
inductive NanPart where
  | integerPart
  | fractionalPart
deriving DecidableEq, Repr

/-- The sign bit of a drawn NaN. Open (R148; log 8). -/
opaque nanSign : Bits32 → NanPart → Bool

/-- The mantissa of a drawn NaN, less 1: every mantissa from 1 to 2^23 - 1 is possible, and 0, which would be an infinity,
is not. Open (R148; log 8). -/
opaque nanPayload : Bits32 → NanPart → Fin 8388607

end Sys2Proof.Config
end

