-- ==== Sys2Proof/Machine/State.lean ====
section
/-! DEFINITION. The machine's state as plain data: the ten registers (spec/10_state.md R20), the host events the block has yet to
accept and what the last host access received. Fault and refusal reasons. -/

namespace Sys2Proof.Machine

/-- What the outside does to the block (spec/20_memory.md R55, spec/70_reset_and_hazards.md R230, R231). An access names its byte
displacement from P_BASE, `o = addr - P_BASE` (R50; log 4): see `memRead` and `memWrite` for absolute addresses. -/
inductive HostEvent where
  /-- A read of `width` bytes. -/
  | read (offset : Int) (width : Nat)
  /-- A write of the byte lanes, lowest address first; its width is their number (R52). -/
  | write (offset : Int) (lanes : List Byte)
  /-- The reset input is asserted between accesses (R230). -/
  | reset
  /-- The reset input is asserted while a CMD write of this word is in progress (R231). -/
  | resetDuringCommand (w : Word)
deriving DecidableEq, Repr

/-- What the last host access received (the model's own field; log 2). A bus error is no response here: it faults the run
(R56). -/
inductive Response where
  /-- No access yet since reset. -/
  | none
  /-- A read's data, all 64 bits of one register (R57). -/
  | data (v : Word)
  /-- A write was accepted, and for CMD its command has completed (R57). -/
  | accepted
  /-- A CMD write that a reset cut off: it never completes (R231). -/
  | aborted
  /-- The access lies outside the window and does not reach the block (R50). -/
  | notReached
deriving DecidableEq, Repr

/-- The state of the block and its boundary. -/
structure State where
  /-- OPND_LO, slot 0 (R21). -/
  opndLo : Word
  /-- OPND_HI, slot 1 (R22). -/
  opndHi : Word
  /-- CMD, slot 2 (R23). -/
  cmd : Word
  /-- STATUS, slot 3 (R24). -/
  status : Word
  /-- RES0, slot 4 (R27). -/
  res0 : Word
  /-- RES1, slot 5 (R27). -/
  res1 : Word
  /-- RES2, slot 6 (R27). -/
  res2 : Word
  /-- RES3, slot 7 (R27). -/
  res3 : Word
  /-- RES4, slot 8 (R27). -/
  res4 : Word
  /-- RES5, slot 9 (R27). -/
  res5 : Word
  /-- Host events not yet accepted, in the total order of R59, next first (the model's own field; log 1). -/
  pending : List HostEvent
  /-- What the last host access received (the model's own field; log 2). -/
  response : Response
deriving DecidableEq, Repr

/-- The state after reset: every register 0 (R33). -/
def State.reset : State where
  opndLo := 0
  opndHi := 0
  cmd := 0
  status := 0
  res0 := 0
  res1 := 0
  res2 := 0
  res3 := 0
  res4 := 0
  res5 := 0
  pending := []
  response := .none

/-- The causes of a bus error (R56). -/
inductive BusErrorCause where
  /-- A width other than 8 bytes (R53). -/
  | width
  /-- An offset that is no multiple of 8 (R54). -/
  | misaligned
  /-- A write to STATUS or RES0 to RES5 (R55). -/
  | readOnly
  /-- An access to slots 10 to 15 (R55). -/
  | reservedSlot
deriving DecidableEq, Repr

/-- Why a run is faulted. -/
inductive Fault where
  /-- A host access is refused with an error response (R56). Raised by `hostRead` and `hostWrite`. Safe: the spec itself has the
  run faulted, and no register changes. -/
  | busError (cause : BusErrorCause)
deriving DecidableEq, Repr

/-- Why the model has no meaning for a step. -/
inductive Refusal where
  /-- A command the model does not model yet. Raised by `exec` only, and by no arm of it now. Safe: the run stops. -/
  | notModelled (mnemonic : String)
deriving DecidableEq, Repr

/-- What every command and every host access answers. -/
abbrev Result := Host.Outcome State Fault Refusal

end Sys2Proof.Machine
end

