-- ==== Sys2Proof/Machine/Flags.lean ====
section
/-! DEFINITION. STATUS: the outcome codes, the word a completion writes and its fields (spec/10_state.md R24 to R26). The block has
no other flag (R31). -/

namespace Sys2Proof.Machine

/-- The errors a command can raise (R12, R25, spec/60_exceptions.md R203). -/
inductive OpError where
  | domainError
  | malformedEncoding
  | illegalCommand
deriving DecidableEq, Repr

/-- STATUS.ERR of an error (R25, R201). -/
def errCode : OpError → BitVec 4
  | .domainError => 1
  | .malformedEncoding => 2
  | .illegalCommand => 3

/-- STATUS after a success: DONE = 1, ERR = 0 (R202). -/
def statusOk : Word := 1 <<< 8

/-- STATUS after an error: `zext_64(1 << 8 | code(E))` (R201). -/
def statusError (e : OpError) : Word := (1 <<< 8) ||| (errCode e).setWidth 64

/-- ERR, bits 3:0 of a STATUS word (R24). -/
def statusErr (w : Word) : BitVec 4 := w.extractLsb' 0 4

/-- DONE, bit 8 of a STATUS word (R24). -/
def statusDone (w : Word) : Bool := w.getLsbD 8

/-- The bits of STATUS that are not reserved: ERR and DONE. The others read 0 (R24). -/
def statusReadMask : Word := 0x10F

end Sys2Proof.Machine
end

