-- ==== Sys2Proof/Machine/Operands.lean ====
section
/-! DEFINITION. Operand assembly (spec/30_encoding.md R73 to R76) and the encodings of results (R78, spec/00_scope.md R8). -/

namespace Sys2Proof.Machine

/-- The Uint16 operand, OPND_LO[15:0] (R74). -/
def operand16 (s : State) : BitVec 16 := s.opndLo.extractLsb' 0 16

/-- The Uint32 or binary32 operand, OPND_LO[31:0] (R74, R75). -/
def operand32 (s : State) : Bits32 := s.opndLo.extractLsb' 0 32

/-- The Uint64 operand, OPND_LO (R74). -/
def operand64 (s : State) : Word := s.opndLo

/-- The Decimal128 operand, OPND_HI ++ OPND_LO (R76). -/
def operandDecimal (s : State) : Bits128 := s.opndHi ++ s.opndLo

/-- `zext_64` (R8). -/
def zext64 {n : Nat} (v : BitVec n) : Word := v.setWidth 64

/-- `tc_64`, the two's-complement encoding of a signed result (R8, R78). -/
def tc64 (k : Int) : Word := BitVec.ofInt 64 k

/-- A Boolean result as 0 or 1 (R78). -/
def boolWord (b : Bool) : Word := if b then 1 else 0

/-- The flags word of a Decimal128, its operand bits 127:96 (R76). -/
def decFlags (d : Bits128) : BitVec 32 := d.extractLsb' 96 32

/-- The significand of a Decimal128, its operand bits 95:0 (R76, R170). -/
def decSig (d : Bits128) : Nat := (d.extractLsb' 0 96).toNat

/-- The scale byte of a Decimal128, flags bits 23:16 (R76). -/
def decScale (d : Bits128) : Nat := ((decFlags d).extractLsb' 16 8).toNat

/-- The sign flag of a Decimal128, flags bit 31 (R76). -/
def decSign (d : Bits128) : Bool := (decFlags d).getLsbD 31

/-- The low 64 bits of a 96-bit result (R77). -/
def low64 (v : Nat) : Word := (BitVec.ofNat 96 v).extractLsb' 0 64

/-- Bits 95:64 of a 96-bit result, zero-extended (R77). -/
def high32 (v : Nat) : Word := zext64 ((BitVec.ofNat 96 v).extractLsb' 64 32)

end Sys2Proof.Machine
end

