-- ==== Sys2Proof/Machine/Ops.lean ====
section
/-! DEFINITION. The shared operations: register reads and writes (spec/00_scope.md R10), the two completions of a command
(spec/60_exceptions.md R201, R202), the reset (spec/70_reset_and_hazards.md R230, R231) and host accesses by absolute address
(spec/00_scope.md R11). The block has no memory beside its registers (spec/20_memory.md R50). Raising an error is the only
exception-like event, and nothing returns from it (R200, R211). -/

namespace Sys2Proof.Machine

/-- `x[i]`, a register read (R10). STATUS's reserved bits read 0 (R24). -/
def readReg (s : State) : Reg → Word
  | .opndLo => s.opndLo
  | .opndHi => s.opndHi
  | .cmd => s.cmd
  | .status => s.status &&& statusReadMask
  | .res0 => s.res0
  | .res1 => s.res1
  | .res2 => s.res2
  | .res3 => s.res3
  | .res4 => s.res4
  | .res5 => s.res5

/-- `x[i] <- v`, a register write (R10). -/
def writeReg (s : State) (r : Reg) (v : Word) : State :=
  match r with
  | .opndLo => { s with opndLo := v }
  | .opndHi => { s with opndHi := v }
  | .cmd => { s with cmd := v }
  | .status => { s with status := v }
  | .res0 => { s with res0 := v }
  | .res1 => { s with res1 := v }
  | .res2 => { s with res2 := v }
  | .res3 => { s with res3 := v }
  | .res4 => { s with res4 := v }
  | .res5 => { s with res5 := v }

/-- `Complete(r0, ..., r5)`, the success completion (R202). -/
def complete (r0 r1 r2 r3 r4 r5 : Word) (s : State) : State :=
  { s with res0 := r0, res1 := r1, res2 := r2, res3 := r3, res4 := r4, res5 := r5, status := statusOk }

/-- `raise E`, the error completion: every command error goes through here (R201). -/
def raiseError (e : OpError) (s : State) : State :=
  { s with res0 := 0, res1 := 0, res2 := 0, res3 := 0, res4 := 0, res5 := 0, status := statusError e }

/-- The reset event: every register takes its reset value (R230). The host events still to come are the outside's and stay
(log 17). -/
def resetBlock (s : State) : State := { State.reset with pending := s.pending }

/-- The reset event during a CMD write: the registers take the reset state, and that access never completes (R231; log 13). -/
def resetAborting (s : State) : State := { resetBlock s with response := .aborted }

/-- The host's next event is `e`, before those already pending. -/
def State.issue (s : State) (e : HostEvent) : State := { s with pending := e :: s.pending }

/-- `o = addr - P_BASE`, the byte displacement of a host address (R50). -/
def offsetOf (addr : Nat) : Int := (addr : Int) - (Config.pBase : Int)

/-- `MemRead(addr, n)` (R11). -/
def memRead (addr n : Nat) : HostEvent := .read (offsetOf addr) n

/-- `MemWrite(addr, n, v)`: the n byte lanes of `v` (R11, R52). -/
def memWrite (addr n v : Nat) : HostEvent := .write (offsetOf addr) (lanesOf n v)

/-- The 8-byte read of a register, `ld r` (R81). -/
def readOf (r : Reg) : HostEvent := .read (regOffset r) 8

/-- The 8-byte write of a register, `st r, v` (R81). -/
def writeOf (r : Reg) (v : Word) : HostEvent := .write (regOffset r) (lanesOf 8 v.toNat)

/-- The byte lane k of a register's value: bits 8k+7:8k (R52). -/
def laneOf (v : Word) (k : Nat) : Byte := v.extractLsb' (8 * k) 8

end Sys2Proof.Machine
end

