-- ==== Sys2Proof/Machine/BitPermutation.lean ====
section
/-! DEFINITION. bit_reversal_permuter: REV16, REV32, REV64 (spec/40_bit_permutation.md). -/

namespace Sys2Proof.Machine

/-- `reverse_N(x)`: output bit i equals input bit N-1-i (R100). -/
def reverseBits {n : Nat} (x : BitVec n) : BitVec n := BitVec.ofFnLE fun i => x.getLsbD (n - 1 - i.val)

/-- MASK_k of the swap network: bits set at the positions p with (p div k) even (R101). -/
def swapMask (k : Nat) : Word :=
  match k with
  | 1 => 0x5555555555555555
  | 2 => 0x3333333333333333
  | 4 => 0x0F0F0F0F0F0F0F0F
  | 8 => 0x00FF00FF00FF00FF
  | 16 => 0x0000FFFF0000FFFF
  | 32 => 0x00000000FFFFFFFF
  | _ => 0

/-- One step of the swap network: adjacent k-bit groups change places (R101). -/
def swapStep {n : Nat} (k : Nat) (x : BitVec n) : BitVec n :=
  let m := (swapMask k).setWidth n
  ((x >>> k) &&& m) ||| ((x &&& m) <<< k)

/-- `swapnet_N(x)` with the steps k = 1, 2, 4, ... below N (R101). The document's algorithm; the commands use `reverseBits`. -/
def swapNetwork {n : Nat} (x : BitVec n) : BitVec n :=
  [1, 2, 4, 8, 16, 32].foldl (fun y k => if k < n then swapStep k y else y) x

/-- REV16 (R102). -/
def execRev16 (s : State) : Result := .next (complete (zext64 (reverseBits (operand16 s))) 0 0 0 0 0 s)

/-- REV32 (R103). -/
def execRev32 (s : State) : Result := .next (complete (zext64 (reverseBits (operand32 s))) 0 0 0 0 0 s)

/-- REV64 (R104). -/
def execRev64 (s : State) : Result := .next (complete (zext64 (reverseBits (operand64 s))) 0 0 0 0 0 s)

end Sys2Proof.Machine
end

