-- ==== Sys2Proof/Machine/DecimalDecomposer.lean ====
section
/-! DEFINITION. decimal_fixed_scale_decomposer: DCOMP128, DPARTS128 (spec/43_decimal_decomposer.md). All arithmetic is on exact
natural numbers. -/

namespace Sys2Proof.Machine

/-- `checkDecimal(D)`: reserved flag bits clear and scale at most 28 (R171). -/
def checkDecimal (d : Bits128) : Except OpError Unit :=
  if (decFlags d).extractLsb' 0 16 ≠ 0#16 ∨ (decFlags d).extractLsb' 24 7 ≠ 0#7 then .error .malformedEncoding
  else if decScale d > 28 then .error .malformedEncoding
  else .ok ()

/-- integerPart: `sig div 10^scale`, a magnitude (R174). -/
def decIntegerPart (d : Bits128) : Nat := decSig d / 10 ^ decScale d

/-- fractionalPartAsInteger: `sig - integerPart * 10^scale`, a magnitude (R174). -/
def decFracInteger (d : Bits128) : Nat := decSig d - decIntegerPart d * 10 ^ decScale d

/-- The significand of fractionalPart = value - integerPart: for a negative value the magnitude grows (R175). -/
def fracSig (d : Bits128) : Nat :=
  if decSign d then decSig d + decIntegerPart d * 10 ^ decScale d else decSig d - decIntegerPart d * 10 ^ decScale d

/-- The sign of fractionalPart: a zero has sign 0 (R175). -/
def fracSign (d : Bits128) : Bool := decSign d && fracSig d != 0

/-- A Decimal128 from its fields, in the layout of R76 (R175). -/
def packDecimal (sign : Bool) (scale sig : Nat) : Bits128 :=
  ((BitVec.ofNat 32 scale <<< 16) ||| ((BitVec.ofBool sign).setWidth 32 <<< 31)) ++ BitVec.ofNat 96 sig

/-- `fracDecimal`: the fractional part at the operand's scale, or DomainError where it has no encoding (R175). -/
def fracDecimal (d : Bits128) : Except OpError Bits128 :=
  if fracSig d > 2 ^ 96 - 1 then .error .domainError else .ok (packDecimal (fracSign d) (decScale d) (fracSig d))

/-- DCOMP128 (R173). -/
def execDcomp128 (s : State) : Result :=
  match checkDecimal (operandDecimal s) with
  | .error e => .next (raiseError e s)
  | .ok () =>
    .next (complete (low64 (decSig (operandDecimal s))) (high32 (decSig (operandDecimal s)))
      (BitVec.ofNat 64 (decScale (operandDecimal s))) (boolWord (decSign (operandDecimal s))) 0 0 s)

/-- DPARTS128: MalformedEncoding is checked first, then DomainError (R176, spec/60_exceptions.md R208). -/
def execDparts128 (s : State) : Result :=
  match checkDecimal (operandDecimal s) with
  | .error e => .next (raiseError e s)
  | .ok () =>
    match fracDecimal (operandDecimal s) with
    | .error e => .next (raiseError e s)
    | .ok f =>
      .next (complete (low64 (decIntegerPart (operandDecimal s))) (high32 (decIntegerPart (operandDecimal s)))
        (f.extractLsb' 0 64) (f.extractLsb' 64 64)
        (low64 (decFracInteger (operandDecimal s))) (high32 (decFracInteger (operandDecimal s))) s)

end Sys2Proof.Machine
end

