-- ==== Sys2Proof/Machine/FloatDecomposer.lean ====
section
/-! DEFINITION. ieee754_float_decomposer: FDECOMP32, FPARTS32 (spec/42_float_decomposer.md). No flags, no rounding control, no
flush to zero (R150). -/

namespace Sys2Proof.Machine

/-- The sign bit of a binary32 pattern, b[31] (R140). -/
def fSign (b : Bits32) : Bool := b.getLsbD 31

/-- The biased exponent, b[30:23] (R140). -/
def fExp (b : Bits32) : BitVec 8 := b.extractLsb' 23 8

/-- The stored mantissa, b[22:0] (R140). -/
def fMant (b : Bits32) : BitVec 23 := b.extractLsb' 0 23

/-- NaN: e = 255 and m ≠ 0 (R141). -/
def isNaN (b : Bits32) : Bool := fExp b == 255#8 && fMant b != 0#23

/-- Infinity: e = 255 and m = 0 (R141). -/
def isInf (b : Bits32) : Bool := fExp b == 255#8 && fMant b == 0#23

/-- Zero: e = 0 and m = 0 (R141). -/
def isZero (b : Bits32) : Bool := fExp b == 0#8 && fMant b == 0#23

/-- Subnormal: e = 0 and m ≠ 0 (R141). -/
def isSubnormal (b : Bits32) : Bool := fExp b == 0#8 && fMant b != 0#23

/-- Finite: e ≠ 255 (R141). -/
def isFinite (b : Bits32) : Bool := fExp b != 255#8

/-- The magnitude of F32(b) for finite b, in units of 2^-149: m for zeros and subnormals, (2^23 + m) · 2^(e-1) for normals
(R141; log 15). -/
def magnitude (b : Bits32) : Nat :=
  if fExp b = 0#8 then (fMant b).toNat else (2 ^ 23 + (fMant b).toNat) * 2 ^ ((fExp b).toNat - 1)

/-- F32(b) for finite b, in units of 2^-149 (R14, R141; log 15). -/
def valueOf (b : Bits32) : Int := if fSign b then -(magnitude b : Int) else (magnitude b : Int)

/-- `s ++ e ++ m` as a binary32 pattern (R140). -/
def packFloat (s : Bool) (e : BitVec 8) (m : BitVec 23) : Bits32 := BitVec.ofBool s ++ e ++ m

/-- `bits32(f)` on the representable values z · 2^-149 (R14): subnormal below 2^23, else the leading bit is hidden and the rest
is the mantissa. Zero is +0.0. -/
def bits32 (z : Int) : Bits32 :=
  if z.natAbs < 2 ^ 23 then packFloat (decide (z < 0)) 0#8 (BitVec.ofNat 23 z.natAbs)
  else
    packFloat (decide (z < 0)) (BitVec.ofNat 8 (Nat.log2 z.natAbs - 22))
      (BitVec.ofNat 23 (z.natAbs / 2 ^ (Nat.log2 z.natAbs - 23)))

/-- `sigOut(b)` under each P_SIG_FORM (R143). -/
def sigOut (form : Config.SigForm) (b : Bits32) : Word :=
  match form with
  | .raw => zext64 (fMant b)
  | .hiddenBit => zext64 (fMant b) + (if fExp b ≠ 0#8 then 0x800000#64 else 0#64)

/-- The `sign` field: +1 or -1, never 0 (R142). -/
def signOut (b : Bits32) : Int := if fSign b then -1 else 1

/-- The `exponent` field: biased - 127 for every pattern (R142). -/
def exponentOut (b : Bits32) : Int := ((fExp b).toNat : Int) - 127

/-- FDECOMP32 with P_SIG_FORM as an argument (R144). -/
def decomposeFloat32 (form : Config.SigForm) (b : Bits32) (s : State) : State :=
  complete (tc64 (signOut b)) (tc64 (exponentOut b)) (sigOut form b) (boolWord (fSign b)) (zext64 (fExp b)) (zext64 (fMant b)) s

/-- `NanOut(FPARTS32, b, k)`: a draw, any NaN (R148; log 8). -/
def nanOut (b : Bits32) (k : Config.NanPart) : Bits32 :=
  packFloat (Config.nanSign b k) 255#8 (BitVec.ofNat 23 ((Config.nanPayload b k).val + 1))

/-- `trunc(b)`: roundToIntegralTowardZero (R145). -/
def trunc (b : Bits32) : Bits32 :=
  if isInf b then b
  else if isNaN b then nanOut b .integerPart
  else if (fExp b).toNat ≤ 126 then packFloat (fSign b) 0#8 0#23
  else if (fExp b).toNat ≥ 150 then b
  else b &&& ~~~ (BitVec.ofNat 32 (2 ^ (150 - (fExp b).toNat) - 1))

/-- `fsub(b, t)` for finite b and t = trunc(b): exact, +0.0 where the values are equal (R146). -/
def fsub (b t : Bits32) : Bits32 := if valueOf b = valueOf t then 0#32 else bits32 (valueOf b - valueOf t)

/-- The fractional part: `value - integerPart`, a NaN for infinities and NaNs (R146, R147). -/
def fracPart (b : Bits32) : Bits32 := if isFinite b then fsub b (trunc b) else nanOut b .fractionalPart

/-- FDECOMP32 (R144). -/
def execFdecomp32 (s : State) : Result := .next (decomposeFloat32 Config.pSigForm (operand32 s) s)

/-- FPARTS32 (R149). -/
def execFparts32 (s : State) : Result :=
  .next (complete (zext64 (trunc (operand32 s))) (zext64 (fracPart (operand32 s))) 0 0 0 0 s)

end Sys2Proof.Machine
end

