-- ==== Sys2Proof/Machine/Primality.lean ====
section
/-! DEFINITION. miller_rabin_primality_tester: ISPRIME64 (spec/41_primality.md). The result is the verdict of R121, which is not
primality (R125). All arithmetic is on exact natural numbers (R123). -/

namespace Sys2Proof.Machine

/-- PRIME_MASK_64: bit i is 1 exactly when i is prime (R120). -/
def primeMask64 : Word := 0x28208A20A08A28AC

/-- TRIAL_PRIMES (R122). -/
def trialPrimes : List Nat := [3, 5, 7, 11, 13, 17, 19, 23, 29, 31, 37]

/-- WITNESSES (R122). -/
def witnesses : List Nat := [2, 3, 5, 7, 11, 13, 17]

/-- `a^d mod n`, exact, for d < 2^fuel, by squaring (R121, R123; log 15). -/
def modExp : Nat → Nat → Nat → Nat → Nat
  | 0, _, _, n => 1 % n
  | fuel + 1, a, d, n =>
    if d = 0 then 1 % n
    else if d % 2 = 1 then a * modExp fuel (a * a % n) (d / 2) n % n
    else modExp fuel (a * a % n) (d / 2) n

/-- Step 4: halve d while it is even, counting in s; `fuel` bounds the halvings (R121). -/
def splitTwos : Nat → Nat → Nat → Nat × Nat
  | 0, d, s => (d, s)
  | fuel + 1, d, s => if d % 2 = 0 then splitTwos fuel (d / 2) (s + 1) else (d, s)

/-- Step 5's squaring loop: passed when one of the next `k` squares is n-1 (R121). -/
def squareLoop : Nat → Nat → Nat → Bool
  | 0, _, _ => false
  | k + 1, x, n => if x * x % n = n - 1 then true else squareLoop k (x * x % n) n

/-- Step 5 for one witness (R121). -/
def witnessPasses (n d s a : Nat) : Bool :=
  if a ≥ n then true
  else if modExp 64 a d n = 1 ∨ modExp 64 a d n = n - 1 then true
  else squareLoop (s - 1) (modExp 64 a d n) n

/-- Steps 4 to 6 (R121). -/
def millerRabin (n : Nat) : Bool :=
  witnesses.all (witnessPasses n (splitTwos 64 (n - 1) 0).1 (splitTwos 64 (n - 1) 0).2)

/-- `isPrime64(n)`, the six steps (R121). -/
def isPrime64 (n : Nat) : Bool :=
  if n < 64 then primeMask64.getLsbD n
  else if n % 2 = 0 then false
  else if trialPrimes.any (fun p => n % p == 0) then false
  else millerRabin n

/-- ISPRIME64 (R124). -/
def execIsprime64 (s : State) : Result :=
  .next (complete (boolWord (isPrime64 (operand64 s).toNat)) 0 0 0 0 0 s)

end Sys2Proof.Machine
end

