-- ==== Sys2Proof/Machine/Dispatch.lean ====
section
/-! DEFINITION. The meaning of each command (spec/30_encoding.md R72): one arm per row of the opcode table. -/

namespace Sys2Proof.Machine

def exec (i : Instr) (s : State) : Host.Outcome State Fault Refusal :=
  match i with
  | .rev16 => Sys2Proof.Machine.execRev16 s
  | .rev32 => Sys2Proof.Machine.execRev32 s
  | .rev64 => Sys2Proof.Machine.execRev64 s
  | .isprime64 => Sys2Proof.Machine.execIsprime64 s
  | .fdecomp32 => Sys2Proof.Machine.execFdecomp32 s
  | .fparts32 => Sys2Proof.Machine.execFparts32 s
  | .dcomp128 => Sys2Proof.Machine.execDcomp128 s
  | .dparts128 => Sys2Proof.Machine.execDparts128 s

end Sys2Proof.Machine
end

