-- ==== Sys2Proof/Machine/Bus.lean ====
section
/-! DEFINITION. What the block does with a host event (spec/20_memory.md R50 to R57, spec/30_encoding.md R72,
spec/70_reset_and_hazards.md R230, R231). -/

namespace Sys2Proof.Machine

/-- `Execute(w)`: decode, then run the command, or raise IllegalCommand (R72, R206). No operand is read before the word is
decoded (R79). -/
def execute (w : Word) (s : State) : Result :=
  match decodeWord w with
  | .ok i => exec i s
  | .error _ => .next (raiseError .illegalCommand s)

/-- Whether a displacement lies in the 128-byte window (R50; log 5). -/
def inWindow (o : Int) : Bool := decide (0 ≤ o ∧ o < 128)

/-- The register an access of `width` bytes at offset `o` of the window selects, or why it is refused (R53, R54, R55). -/
def selectReg (o width : Nat) : Except BusErrorCause Reg :=
  if width ≠ 8 then .error .width
  else if o % 8 ≠ 0 then .error .misaligned
  else
    match regOfIndex (o / 8) with
    | some r => .ok r
    | none => .error .reservedSlot

/-- A host read in the window: the register's value, and no side effect (R55). -/
def hostRead (o width : Nat) (s : State) : Result :=
  match selectReg o width with
  | .error c => .fault (.busError c)
  | .ok r => .next { s with response := .data (readReg s r) }

/-- An accepted host write: OPND registers store it; CMD stores it and executes it before the write completes (R55, R57). -/
def writeAccepted (r : Reg) (v : Word) (s : State) : Result :=
  match r with
  | .cmd => execute v (writeReg { s with response := .accepted } .cmd v)
  | r => .next (writeReg { s with response := .accepted } r v)

/-- A host write in the window (R55). -/
def hostWrite (o : Nat) (lanes : List Byte) (s : State) : Result :=
  match selectReg o lanes.length with
  | .error c => .fault (.busError c)
  | .ok r => if hostWritable r then writeAccepted r (wordOfLanes lanes) s else .fault (.busError .readOnly)

/-- One host event. An access outside the window does not reach the block (R50). -/
def acceptEvent (e : HostEvent) (s : State) : Result :=
  match e with
  | .read o width => if inWindow o then hostRead o.toNat width s else .next { s with response := .notReached }
  | .write o lanes => if inWindow o then hostWrite o.toNat lanes s else .next { s with response := .notReached }
  | .reset => .next (resetBlock s)
  | .resetDuringCommand _ => .next (resetAborting s)

end Sys2Proof.Machine
end

