-- ==== Sys2Proof/Machine/Step.lean ====
section
/-! DEFINITION. One step of the machine: the block accepts the next host event (spec/20_memory.md R59), or idles when there is
none (spec/10_state.md R29). -/

namespace Sys2Proof.Machine

/-- One step. With no host event pending the block does nothing (R29; log 3). -/
def step (s : State) : Host.Outcome State Fault Refusal :=
  match s.pending with
  | [] => .next s
  | e :: rest => acceptEvent e { s with pending := rest }

/-- The host's next access writes the table row's word to CMD, which is how a command comes to run (R3, R23; log 1, log 18). -/
def State.withFetchWord (s : State) (nbits w : Nat) : State := s.issue (writeOf .cmd (tableWord nbits w))

end Sys2Proof.Machine
end

