-- ==== Sys2Proof/Machine/Assembler.lean ====
section
/-! DEFINITION. What host program lines and pseudo-instructions do on the bus (spec/30_encoding.md R81, R82). -/

namespace Sys2Proof.Machine

/-- A line's bus transaction: `W <offset> <data64>` for st and `R <offset>` for ld (R81). -/
def HostLine.event : HostLine → HostEvent
  | .st r imm => .write (regOffset r) (lanesOf 8 imm)
  | .ld r => .read (regOffset r) 8

/-- The expansion of a pseudo-instruction (R82). -/
def Pseudo.expand : Pseudo → List HostLine
  | .rev16 v => [.st .opndLo v, .st .cmd 0x01]
  | .rev32 v => [.st .opndLo v, .st .cmd 0x02]
  | .rev64 v => [.st .opndLo v, .st .cmd 0x03]
  | .isprime64 n => [.st .opndLo n, .st .cmd 0x10]
  | .fdecomp32 b => [.st .opndLo b, .st .cmd 0x20]
  | .fparts32 b => [.st .opndLo b, .st .cmd 0x21]
  | .dcomp128 lo hi => [.st .opndLo lo, .st .opndHi hi, .st .cmd 0x30]
  | .dparts128 lo hi => [.st .opndLo lo, .st .opndHi hi, .st .cmd 0x31]
  | .cmd i => [.st .cmd (encode i).toNat]
  | .getres => [.ld .status, .ld .res0, .ld .res1, .ld .res2, .ld .res3, .ld .res4, .ld .res5]

/-- The host events of a program, in order (R81, R82). -/
def programEvents (ps : List Pseudo) : List HostEvent := (ps.flatMap Pseudo.expand).map HostLine.event

end Sys2Proof.Machine
end

