-- ==== Sys2Proof/Safety.lean ====
section
/-! DEFINITION. The words claims are stated in: runs, what a legal host access is, what a command leaves alone, the consistency of
the registers, and the reference notions of primality testing and of decimal operands that the units are compared with. -/

namespace Sys2Proof.Machine

/-- `k` steps of the machine, stopping at the first fault. -/
def run : Nat → State → Result
  | 0, s => .next s
  | k + 1, s =>
    match step s with
    | .next t => run k t
    | .fault f => .fault f
    | .refused r => .refused r

/-- A host event that the block accepts: an access in the window is 8 bytes wide and aligned, reads stay in slots 0 to 9 and
writes in slots 0 to 2; an access outside the window does not reach the block; a reset is always taken (R50, R53 to R56, R230). -/
def LegalEvent : HostEvent → Prop
  | .read o width => 0 ≤ o → o < 128 → width = 8 ∧ o % 8 = 0 ∧ o < 80
  | .write o lanes => 0 ≤ o → o < 128 → lanes.length = 8 ∧ o % 8 = 0 ∧ o < 24
  | .reset => True
  | .resetDuringCommand _ => True

/-- A safe run: no number of steps ends in a bus error (R56). -/
def Safe (s : State) : Prop := ∀ k, ∃ t, run k s = .next t

/-- A reset of the block, between accesses or during a command (R230, R231). -/
def IsReset : HostEvent → Prop
  | .read _ _ => False
  | .write _ _ => False
  | .reset => True
  | .resetDuringCommand _ => True

/-- A write at the offset of the register `r`. -/
def IsWriteOf (r : Reg) : HostEvent → Prop
  | .read _ _ => False
  | .write o _ => o = regOffset r
  | .reset => False
  | .resetDuringCommand _ => False

/-- RES1 to RES5 are 0. -/
def UpperResultsZero (s : State) : Prop := s.res1 = 0 ∧ s.res2 = 0 ∧ s.res3 = 0 ∧ s.res4 = 0 ∧ s.res5 = 0

/-- All six result registers are 0. -/
def ResultsZero (s : State) : Prop := s.res0 = 0 ∧ UpperResultsZero s

/-- The two states agree on STATUS and all results. -/
def SameOutcome (s t : State) : Prop :=
  t.status = s.status ∧ t.res0 = s.res0 ∧ t.res1 = s.res1 ∧ t.res2 = s.res2 ∧ t.res3 = s.res3 ∧ t.res4 = s.res4 ∧
    t.res5 = s.res5

/-- The frame of a command: everything but STATUS and the results is unchanged (R21 to R23, R201, R202). -/
def CommandFrame (s t : State) : Prop :=
  t.opndLo = s.opndLo ∧ t.opndHi = s.opndHi ∧ t.cmd = s.cmd ∧ t.pending = s.pending ∧ t.response = s.response

/-- The command completed with success and left the rest alone: STATUS = 0x100 (R202). -/
def CompletedOk (s t : State) : Prop := t.status = 0x100 ∧ CommandFrame s t

/-- The command completed with the error code `k` of R25: STATUS = 0x100 + k, all results 0, the rest left alone (R201). -/
def CompletedError (k : Nat) (s t : State) : Prop := t.status.toNat = 0x100 + k ∧ ResultsZero t ∧ CommandFrame s t

/-- Which errors a command can raise (R203). -/
def canRaise : Instr → OpError → Prop
  | .dcomp128, .malformedEncoding => True
  | .dparts128, .malformedEncoding => True
  | .dparts128, .domainError => True
  | _, _ => False

/-- What the result registers hold after each command has succeeded, whatever its operand was (R77). -/
def ResultShape (i : Instr) (s : State) : Prop :=
  match i with
  | .rev16 => s.res0.toNat < 2 ^ 16 ∧ UpperResultsZero s
  | .rev32 => s.res0.toNat < 2 ^ 32 ∧ UpperResultsZero s
  | .rev64 => UpperResultsZero s
  | .isprime64 => s.res0.toNat ≤ 1 ∧ UpperResultsZero s
  | .fdecomp32 =>
    (s.res3 = 0 ∧ s.res0 = 1 ∨ s.res3 = 1 ∧ s.res0 = -1) ∧ s.res4.toNat < 256 ∧ s.res1 = s.res4 - 127 ∧
      s.res5.toNat < 2 ^ 23 ∧ s.res2 = s.res5
  | .fparts32 =>
    s.res0.toNat < 2 ^ 32 ∧ s.res1.toNat < 2 ^ 32 ∧
      (isFinite (s.res0.setWidth 32) = true →
        isFinite (s.res1.setWidth 32) = true ∧ magnitude (s.res1.setWidth 32) < 2 ^ 149) ∧
      (isFinite (s.res0.setWidth 32) = false → isNaN (s.res1.setWidth 32) = true) ∧
      s.res2 = 0 ∧ s.res3 = 0 ∧ s.res4 = 0 ∧ s.res5 = 0
  | .dcomp128 => s.res1.toNat < 2 ^ 32 ∧ s.res2.toNat ≤ 28 ∧ s.res3.toNat ≤ 1 ∧ s.res4 = 0 ∧ s.res5 = 0
  | .dparts128 =>
    s.res1.toNat < 2 ^ 32 ∧ s.res5.toNat < 2 ^ 32 ∧ checkDecimal (s.res3 ++ s.res2) = .ok () ∧
      s.res5.toNat * 2 ^ 64 + s.res4.toNat < 10 ^ decScale (s.res3 ++ s.res2) ∧
      (decSign (s.res3 ++ s.res2) = false → decSig (s.res3 ++ s.res2) = s.res5.toNat * 2 ^ 64 + s.res4.toNat)

/-- STATUS and the results are those of the last command, whose word CMD still holds (R24 to R27, R77, R201 to R203). -/
def CompletedState (s : State) : Prop :=
  match decodeWord s.cmd with
  | .ok i => s.status = statusOk ∧ ResultShape i s ∨ ∃ e, canRaise i e ∧ s.status = statusError e ∧ ResultsZero s
  | .error _ => s.status = statusError .illegalCommand ∧ ResultsZero s

/-- The registers are consistent: either no command has run since reset, or STATUS and the results are the last command's. -/
def Consistent (s : State) : Prop := s.cmd = 0 ∧ s.status = 0 ∧ ResultsZero s ∨ CompletedState s

/-- Strong probable prime to base `a` (spec/00_scope.md glossary): with n - 1 = 2^r · d and d odd, a^d or one of its next squares
below the r-th is as for a prime. -/
def StrongProbablePrime (a n : Nat) : Prop :=
  ∃ r d, n - 1 = 2 ^ r * d ∧ d % 2 = 1 ∧ (a ^ d % n = 1 ∨ ∃ k, k < r ∧ a ^ (2 ^ k * d) % n = n - 1)

/-- The verdict of R121 on exact integers: primes below 64; from 64 on, the odd numbers with no trial divisor that are strong
probable primes to all seven witnesses. -/
def AcceptedByTest (n : Nat) : Prop :=
  n < 64 ∧ n.Prime ∨
    64 ≤ n ∧ n % 2 = 1 ∧ (∀ p ∈ [3, 5, 7, 11, 13, 17, 19, 23, 29, 31, 37], ¬ p ∣ n) ∧
      ∀ a ∈ [2, 3, 5, 7, 11, 13, 17], StrongProbablePrime a n

/-- The number the binary32 operand's 32 bits stand for, OPND_LO[31:0] (R75). -/
def floatOperand (s : State) : Nat := s.opndLo.toNat % 2 ^ 32

/-- The Decimal128 operand's significand, operand bits 95:0 (R76). -/
def operandSig (s : State) : Nat := s.opndHi.toNat % 2 ^ 32 * 2 ^ 64 + s.opndLo.toNat

/-- The Decimal128 operand's scale, operand bits 119:112 (R76). -/
def operandScale (s : State) : Nat := s.opndHi.toNat / 2 ^ 48 % 2 ^ 8

/-- The Decimal128 operand's sign, operand bit 127 (R76). -/
def operandSign (s : State) : Nat := s.opndHi.toNat / 2 ^ 63

/-- The Decimal128 operand is well-formed: operand bits 111:96 and 126:120 are 0 and the scale is at most 28 (R76, R171). -/
def OperandValid (s : State) : Prop :=
  s.opndHi.toNat / 2 ^ 32 % 2 ^ 16 = 0 ∧ s.opndHi.toNat / 2 ^ 56 % 2 ^ 7 = 0 ∧ operandScale s ≤ 28

/-- A negative operand whose fractional part has no 96-bit significand at its scale (R175, R204). -/
def FractionUnrepresentable (s : State) : Prop :=
  operandSign s = 1 ∧ operandSig s + operandSig s / 10 ^ operandScale s * 10 ^ operandScale s > 2 ^ 96 - 1

/-- `Dec(sig, scale, sign)`, the value of a decimal (R15, R170). -/
def decimalValue (sig scale sign : Nat) : ℚ := (-1) ^ sign * (sig : ℚ) / (10 : ℚ) ^ scale

/-- The 96-bit result in RES0 and RES1 (R77). -/
def result01 (t : State) : Nat := t.res1.toNat * 2 ^ 64 + t.res0.toNat

/-- The 96-bit result in RES4 and RES5 (R77). -/
def result45 (t : State) : Nat := t.res5.toNat * 2 ^ 64 + t.res4.toNat

/-- The host copies RES2 and RES3 into OPND_LO and OPND_HI, to use DPARTS128's fractional part as an operand (R77). -/
def fractionAsOperand (t : State) : State := { t with opndLo := t.res2, opndHi := t.res3 }

/-- The operand bits a command reads, as masks on OPND_LO and OPND_HI (R71, R73). -/
def operandMasks : Instr → Word × Word
  | .rev16 => (0xFFFF, 0)
  | .rev32 => (0xFFFFFFFF, 0)
  | .rev64 => (0xFFFFFFFFFFFFFFFF, 0)
  | .isprime64 => (0xFFFFFFFFFFFFFFFF, 0)
  | .fdecomp32 => (0xFFFFFFFF, 0)
  | .fparts32 => (0xFFFFFFFF, 0)
  | .dcomp128 => (0xFFFFFFFFFFFFFFFF, 0xFFFFFFFFFFFFFFFF)
  | .dparts128 => (0xFFFFFFFFFFFFFFFF, 0xFFFFFFFFFFFFFFFF)

end Sys2Proof.Machine
end

