-- ==== Sys2Proof/Certificates/Slice0/Obligations.lean ====
section
/-! DEFINITION. The statements about the Flux numeric core, for the provers. `s.issue e` is the state in which `e` is the host's next
event. No statement rests on a value of P_BASE or of a NaN draw. -/

open Sys2Proof Sys2Proof.Machine

/-! ### Reset -/

/-- R33: after reset every register has the value 0, so ERR = 0 and DONE = 0. -/
def Obligations.ResetLeavesEveryRegisterZero : Prop :=
  (∀ r, readReg State.reset r = 0) ∧ State.reset.status = 0 ∧ statusErr State.reset.status = 0 ∧
    statusDone State.reset.status = false

/-- R230: asserting reset puts every register in the reset state, runs no command, and the block accepts accesses at once:
the very next event is taken from the reset state. That reset leaves the pending events is the model's choice (log 17, log 20). -/
def Obligations.ResetAssertionClearsTheBlock : Prop :=
  ∀ (s : State), ∃ t, step (s.issue .reset) = .next t ∧ (∀ r, readReg t r = 0) ∧ t.status = 0 ∧ t.pending = s.pending ∧
    ∀ e rest, s.pending = e :: rest → step t = acceptEvent e { State.reset with pending := rest }

/-- R231: reset during a CMD write abandons the command: the registers are reset, and the write gets no successful response.
That the event and its response take this form is the model's choice (log 13, log 17). -/
def Obligations.ResetDuringACommandAbandonsIt : Prop :=
  ∀ (s : State) (w : Word), ∃ t, step (s.issue (.resetDuringCommand w)) = .next t ∧ (∀ r, readReg t r = 0) ∧ t.status = 0 ∧
    t.response = .aborted ∧ t.pending = s.pending

/-! ### Encoding -/

/-- Command words written out bit by bit from R71, one per unit and both decimal commands, decode to their commands. -/
def Obligations.WrittenOutWordsDecode : Prop :=
  decodeWord 0b0000000000000000000000000000000000000000000000000000000000000011#64 = .ok .rev64 ∧
  decodeWord 0b0000000000000000000000000000000000000000000000000000000000010000#64 = .ok .isprime64 ∧
  decodeWord 0b0000000000000000000000000000000000000000000000000000000000100001#64 = .ok .fparts32 ∧
  decodeWord 0b0000000000000000000000000000000000000000000000000000000000110000#64 = .ok .dcomp128 ∧
  decodeWord 0b0000000000000000000000000000000000000000000000000000000000110001#64 = .ok .dparts128

/-- Decode and encode agree on byte lanes, both ways: every command's bytes decode to it, and any bytes that decode to a command
are that command's bytes. So no second word and no other length stands for a command. -/
def Obligations.DecodeAndEncodeAgree : Prop :=
  ∀ i : Instr, i.wf = true → ∀ bs, decodeBytes bs = .ok i ↔ bs = encodeBytes i

/-- R79: writing any word other than the eight of R71 to CMD completes with ILLEGAL_COMMAND, runs no operation and leaves the
operands alone. -/
def Obligations.EveryOtherWordIsIllegal : Prop :=
  ∀ (s : State) (w : Word), w ∉ ([0x01, 0x02, 0x03, 0x10, 0x20, 0x21, 0x30, 0x31] : List Word) →
    ∃ t, step (s.issue (writeOf .cmd w)) = .next t ∧ CompletedError 3 { s with cmd := w, response := .accepted } t

/-! ### The step and the host interface -/

/-- A step runs the decoded command: when the next event writes eight lanes to CMD and their word decodes to `i`, the step is
`exec i` at the state with the event taken, CMD holding the word and the write accepted. -/
def Obligations.StepRunsTheDecodedCommand : Prop :=
  ∀ (s : State) (lanes : List Byte) (rest : List HostEvent) (i : Instr), s.pending = .write 0x10 lanes :: rest → lanes.length = 8 → decodeWord (wordOfLanes lanes) = .ok i →
    step s = exec i { s with cmd := wordOfLanes lanes, pending := rest, response := .accepted }

/-- The command that the opcode table's word stands for is the one the next step runs, from any state. -/
def Obligations.FetchedTableWordRuns : Prop :=
  ∀ (s : State) (i : Instr), decodeTableWord 64 (encode i).toNat = some i ∧
    step (s.withFetchWord 64 (encode i).toNat) = exec i { s with cmd := encode i, response := .accepted }

/-- R55: what an aligned 8-byte access at each slot of the window does. Slots 0 to 9 read as their registers with no side effect;
OPND writes store; a CMD write stores and executes; everything else is a bus error. -/
def Obligations.WindowAccessesDoAsListed : Prop :=
  (∀ (s : State) (r : Reg), step (s.issue (.read (8 * regIndex r : Nat) 8)) = .next { s with response := .data (readReg s r) }) ∧
  (∀ (s : State) (i : Nat), 10 ≤ i → i ≤ 15 → ∃ f, step (s.issue (.read (8 * i : Nat) 8)) = .fault f) ∧
  (∀ (s : State) (v : Word), step (s.issue (.write 0x00 (lanesOf 8 v.toNat))) = .next { s with opndLo := v, response := .accepted }) ∧
  (∀ (s : State) (v : Word), step (s.issue (.write 0x08 (lanesOf 8 v.toNat))) = .next { s with opndHi := v, response := .accepted }) ∧
  (∀ (s : State) (v : Word), step (s.issue (.write 0x10 (lanesOf 8 v.toNat))) =
    execute v { s with cmd := v, response := .accepted }) ∧
  (∀ (s : State) (i : Nat) (v : Word), 3 ≤ i → i ≤ 15 → ∃ f, step (s.issue (.write (8 * i : Nat) (lanesOf 8 v.toNat))) = .fault f)

/-- A step faults exactly when the next event is an access in the window that is not 8 bytes wide (R53), not aligned (R54), a read
of slots 10 to 15, or a write of slots 3 to 15. Which accesses are in the window is the model's choice (log 5), as is that an
outside access (log 16) and a step with no event pending (log 3) answer a next state. -/
def Obligations.BusErrorsAreExactlyTheListedCauses : Prop :=
  ∀ (s : State), (∃ f, step s = .fault f) ↔ ∃ e rest, s.pending = e :: rest ∧ ¬ LegalEvent e

/-- Legal hosts never fault the block: while every pending event is legal, no number of steps ends in a bus error (R50, R53 to
R56, R230). Three clauses are the model's choices: an access that starts below the window counts as outside, hence legal, even
where it reaches into the window (log 5, unsafe); an outside access answers a next state (log 16); the steps past the last
pending event leave the state as it is (log 3). -/
def Obligations.LegalHostsRunSafely : Prop :=
  ∀ (s : State), (∀ e ∈ s.pending, LegalEvent e) → Safe s

/-- R50: the window is the 128 bytes from P_BASE, a multiple of 128. An access that starts elsewhere does not reach the block,
and one inside selects its offset. That the step of an outside access answers a next state with the response `notReached` is the
model's choice (log 16), and so is which accesses count as outside (log 5). -/
def Obligations.WindowDecodesFromItsBase : Prop :=
  Config.pBase % 128 = 0 ∧
  (∀ (s : State) (addr n : Nat), addr < Config.pBase ∨ Config.pBase + 128 ≤ addr →
    step (s.issue (memRead addr n)) = .next { s with response := .notReached }) ∧
  (∀ (s : State) (addr n v : Nat), addr < Config.pBase ∨ Config.pBase + 128 ≤ addr →
    step (s.issue (memWrite addr n v)) = .next { s with response := .notReached }) ∧
  (∀ (s : State) (r : Reg), step (s.issue (memRead (Config.pBase + 8 * regIndex r) 8)) =
    .next { s with response := .data (readReg s r) }) ∧
  (∀ (s : State) (v : Word), step (s.issue (memWrite (Config.pBase + 0x10) 8 v.toNat)) =
    execute v { s with cmd := v, response := .accepted })

/-- R52: little-endian lanes. Lane k of a write becomes bits 8k+7:8k of the operand register it is stored in, and the lanes of a
register's value are its bytes in that order. -/
def Obligations.ByteLanesAreLittleEndian : Prop :=
  (∀ (s : State) (lanes : List Byte), lanes.length = 8 → ∃ t u,
    step (s.issue (.write 0x00 lanes)) = .next t ∧ step (s.issue (.write 0x08 lanes)) = .next u ∧
    ∀ k, k < 8 → lanes[k]? = some (laneOf t.opndLo k) ∧ lanes[k]? = some (laneOf u.opndHi k)) ∧
  (∀ (v : Word) k, k < 8 → (lanesOf 8 v.toNat)[k]? = some (laneOf v k))

/-- Every CMD write completes in its own step, whatever the word and the state: CMD holds the word, DONE is 1, ERR is 0 to 3, and
the operands and the later events are untouched. -/
def Obligations.EveryCommandWriteCompletes : Prop :=
  ∀ (s : State) (w : Word), ∃ t, step (s.issue (writeOf .cmd w)) = .next t ∧ t.cmd = w ∧ t.opndLo = s.opndLo ∧ t.opndHi = s.opndHi ∧
    t.pending = s.pending ∧ t.response = .accepted ∧ statusDone t.status = true ∧ (statusErr t.status).toNat ≤ 3

/-- With no host event pending the block does nothing (R29; that the model's step is then the identity is log 3). -/
def Obligations.TheBlockIdlesWithoutAHost : Prop :=
  ∀ (s : State), s.pending = [] → ∀ k, run k s = .next s

/-! ### Frames and whole-machine rules -/

/-- Every command completes and changes nothing but STATUS and RES0 to RES5. The block has no memory beside its registers. -/
def Obligations.CommandsChangeOnlyStatusAndResults : Prop :=
  ∀ (i : Instr) (s : State), ∃ t, exec i s = .next t ∧ CommandFrame s t

/-- Which host event can change which register: OPND_LO, OPND_HI and CMD only a write to them or a reset, STATUS and the results
only a CMD write or a reset. -/
def Obligations.RegistersChangeOnlyByTheirWriters : Prop :=
  ∀ (s t : State), step s = .next t →
    (t.opndLo ≠ s.opndLo → ∃ e rest, s.pending = e :: rest ∧ (IsWriteOf .opndLo e ∨ IsReset e)) ∧
    (t.opndHi ≠ s.opndHi → ∃ e rest, s.pending = e :: rest ∧ (IsWriteOf .opndHi e ∨ IsReset e)) ∧
    (t.cmd ≠ s.cmd → ∃ e rest, s.pending = e :: rest ∧ (IsWriteOf .cmd e ∨ IsReset e)) ∧
    (¬ SameOutcome s t → ∃ e rest, s.pending = e :: rest ∧ (IsWriteOf .cmd e ∨ IsReset e))

/-- R26: DONE is 0 after reset; any completion sets it, with an error or without; nothing but reset clears it; reading STATUS has
no side effect. -/
def Obligations.DoneStaysSetUntilReset : Prop :=
  statusDone State.reset.status = false ∧
  (∀ (s : State) (w : Word) (t : State), step (s.issue (writeOf .cmd w)) = .next t → statusDone t.status = true) ∧
  (∀ (s t : State), step s = .next t → statusDone s.status = true → statusDone t.status = false →
    ∃ e rest, s.pending = e :: rest ∧ IsReset e) ∧
  (∀ (s : State), ∃ v, step (s.issue (readOf .status)) = .next { s with response := .data v })

/-- STATUS's reserved bits 7:4 and 63:9 read 0 in every state, and ERR and DONE read as stored (R24). -/
def Obligations.ReservedStatusBitsReadZero : Prop :=
  ∀ (s : State), ∃ v, step (s.issue (readOf .status)) = .next { s with response := .data v } ∧
    (∀ k, 4 ≤ k → k ≤ 7 → v.getLsbD k = false) ∧ (∀ k, 9 ≤ k → v.getLsbD k = false) ∧
    statusErr v = statusErr s.status ∧ statusDone v = statusDone s.status

/-- An invariant of every step, from every state: the registers stay consistent, so that STATUS and the results are always those
that the command word in CMD can produce, or all 0 where no command has run. -/
def Obligations.EveryStepKeepsTheRegistersConsistent : Prop :=
  ∀ (s t : State), Consistent s → step s = .next t → Consistent t

/-- The reset state is consistent. -/
def Obligations.ResetIsConsistent : Prop := Consistent State.reset

/-- In a consistent state STATUS reads exactly as stored, and an error outcome comes with all results 0. -/
def Obligations.ConsistentStatusReadsBack : Prop :=
  ∀ (s : State), Consistent s → readReg s .status = s.status ∧ (statusErr s.status ≠ 0 → ResultsZero s) ∧
    (statusDone s.status = false → s.cmd = 0 ∧ ResultsZero s)

/-- What the host reads after a CMD write depends only on the word and the two operand registers: no earlier command, status or
result matters (R2, R27). -/
def Obligations.OutcomeDependsOnlyOnWordAndOperands : Prop :=
  ∀ (s s' : State) (w : Word), s.opndLo = s'.opndLo → s.opndHi = s'.opndHi → ∃ t t',
    step (s.issue (writeOf .cmd w)) = .next t ∧ step (s'.issue (writeOf .cmd w)) = .next t' ∧ SameOutcome t t'

/-- R73: the operand bits a command does not list are ignored: they cause no error and do not change the result. -/
def Obligations.UnlistedOperandBitsAreIgnored : Prop :=
  ∀ (i : Instr) (s s' : State), s.opndLo &&& (operandMasks i).1 = s'.opndLo &&& (operandMasks i).1 →
    s.opndHi &&& (operandMasks i).2 = s'.opndHi &&& (operandMasks i).2 →
    ∃ t t', exec i s = .next t ∧ exec i s' = .next t' ∧ SameOutcome t t'

/-- R58: reads have no side effect, operand writes and CMD writes are idempotent. -/
def Obligations.RepeatedAccessesAreIdempotent : Prop :=
  (∀ (s : State) (r : Reg), ∃ t, step (s.issue (readOf r)) = .next t ∧ step (t.issue (readOf r)) = .next t ∧
    t = { s with response := .data (readReg s r) }) ∧
  (∀ (s : State) (r : Reg) (v : Word), r = .opndLo ∨ r = .opndHi → ∃ t,
    step (s.issue (writeOf r v)) = .next t ∧ step (t.issue (writeOf r v)) = .next t ∧
      t = writeReg { s with response := .accepted } r v) ∧
  (∀ (s : State) (w : Word), ∃ t, step (s.issue (writeOf .cmd w)) = .next t ∧ step (t.issue (writeOf .cmd w)) = .next t ∧
    statusDone t.status = true)

/-- R208: the outcome of one CMD write, in the order of priority: an illegal word, a malformed operand of a decimal command, an
unrepresentable fractional part of DPARTS128, else OK. -/
def Obligations.OneOutcomeByPriority : Prop :=
  ∀ (s : State) (w : Word), ∃ t, step (s.issue (writeOf .cmd w)) = .next t ∧
    (w ∉ ([0x01, 0x02, 0x03, 0x10, 0x20, 0x21, 0x30, 0x31] : List Word) → t.status = 0x103) ∧
    (w = 0x30 ∨ w = 0x31 → ¬ OperandValid s → t.status = 0x102) ∧
    (w = 0x31 → OperandValid s → FractionUnrepresentable s → t.status = 0x101) ∧
    (w = 0x31 → OperandValid s → ¬ FractionUnrepresentable s → t.status = 0x100) ∧
    (w = 0x30 → OperandValid s → t.status = 0x100) ∧
    (w ∈ ([0x01, 0x02, 0x03, 0x10, 0x20, 0x21] : List Word) → t.status = 0x100)

/-- R203: the outcomes each command can produce, and that every error outcome leaves all results 0; an illegal word stays in
CMD. -/
def Obligations.CommandsProduceOnlyTheirListedOutcomes : Prop :=
  (∀ (i : Instr) (s : State), i ≠ .dcomp128 → i ≠ .dparts128 → ∃ t, exec i s = .next t ∧ CompletedOk s t) ∧
  (∀ (s : State), ∃ t, exec .dcomp128 s = .next t ∧ (CompletedOk s t ∨ CompletedError 2 s t)) ∧
  (∀ (s : State), ∃ t, exec .dparts128 s = .next t ∧ (CompletedOk s t ∨ CompletedError 1 s t ∨ CompletedError 2 s t)) ∧
  (∀ (s : State) (w : Word) r, decodeWord w = .error r → ∃ t, step (s.issue (writeOf .cmd w)) = .next t ∧
    CompletedError 3 { s with cmd := w, response := .accepted } t)

/-! ### Shared use -/

/-- A host's operand, command and result sequence gets its own results when the only accesses of others in between are register
reads: after the sequence, STATUS and the results are those of the command on that operand. -/
def Obligations.ExclusiveUseGetsOwnResults : Prop :=
  ∀ (s : State) (lo hi w : Word) (i : Instr) (r1 r2 r3 rest : List HostEvent), decodeWord w = .ok i →
    (∀ e ∈ r1 ++ r2 ++ r3, ∃ r, e = readOf r) →
    s.pending = writeOf .opndLo lo :: (r1 ++ writeOf .opndHi hi :: (r2 ++ writeOf .cmd w :: (r3 ++ rest))) →
    ∃ t u, run (r1.length + r2.length + r3.length + 3) s = .next t ∧
      exec i { s with opndLo := lo, opndHi := hi, cmd := w } = .next u ∧ SameOutcome u t ∧
      t.opndLo = lo ∧ t.opndHi = hi ∧ t.cmd = w ∧ t.pending = rest

/-- Without exclusive use a host can read another host's result: one interleaving of two hosts' REV64 sequences in which the first
host's read of RES0 returns the second host's result (R235). -/
def Obligations.SharedUseCanReturnAnotherHostsResult : Prop :=
  ∃ t, run 5 { State.reset with pending :=
      [writeOf .opndLo 1, writeOf .opndLo 2, writeOf .cmd 0x03, writeOf .cmd 0x03, readOf .res0] } = .next t ∧
    t.response = .data 0x4000000000000000

/-- R82: each command pseudo-instruction stores its operand and runs its command. -/
def Obligations.PseudoInstructionsRunTheirCommands : Prop :=
  (∀ (s : State) (v : Nat), v < 2 ^ 64 → ∀ q ∈ ([(.rev16 v, .rev16), (.rev32 v, .rev32), (.rev64 v, .rev64), (.isprime64 v, .isprime64),
      (.fdecomp32 v, .fdecomp32), (.fparts32 v, .fparts32)] : List (Pseudo × Instr)),
    run 2 { s with pending := programEvents [q.1] } =
      exec q.2 { s with opndLo := BitVec.ofNat 64 v, cmd := encode q.2, pending := [], response := .accepted }) ∧
  (∀ (s : State) (lo hi : Nat), lo < 2 ^ 64 → hi < 2 ^ 64 →
    ∀ q ∈ ([(.dcomp128 lo hi, .dcomp128), (.dparts128 lo hi, .dparts128)] : List (Pseudo × Instr)),
    run 3 { s with pending := programEvents [q.1] } =
      exec q.2 { s with opndLo := BitVec.ofNat 64 lo, opndHi := BitVec.ofNat 64 hi, cmd := encode q.2, pending := [],
                        response := .accepted }) ∧
  (∀ (s : State) (i : Instr), run 1 { s with pending := programEvents [.cmd i] } =
    exec i { s with cmd := encode i, pending := [], response := .accepted })

/-! ### bit_reversal_permuter -/

/-- R102: REV16 is word 0x1 and puts OPND_LO[15:0] reversed in RES0, zero-extended; RES1 to RES5 are 0. -/
def Obligations.Rev16ReversesTheLowHalfword : Prop :=
  decodeWord 0x1 = .ok .rev16 ∧
  ∀ (s : State), ∃ t, exec .rev16 s = .next t ∧ CompletedOk s t ∧ UpperResultsZero t ∧
    (∀ i, i < 16 → t.res0.getLsbD i = s.opndLo.getLsbD (15 - i)) ∧ (∀ i, 16 ≤ i → t.res0.getLsbD i = false)

/-- R103: REV32 is word 0x2 and puts OPND_LO[31:0] reversed in RES0, zero-extended; RES1 to RES5 are 0. -/
def Obligations.Rev32ReversesTheLowWord : Prop :=
  decodeWord 0x2 = .ok .rev32 ∧
  ∀ (s : State), ∃ t, exec .rev32 s = .next t ∧ CompletedOk s t ∧ UpperResultsZero t ∧
    (∀ i, i < 32 → t.res0.getLsbD i = s.opndLo.getLsbD (31 - i)) ∧ (∀ i, 32 ≤ i → t.res0.getLsbD i = false)

/-- R104: REV64 is word 0x3 and puts OPND_LO reversed in RES0; RES1 to RES5 are 0. -/
def Obligations.Rev64ReversesTheWord : Prop :=
  decodeWord 0x3 = .ok .rev64 ∧
  ∀ (s : State), ∃ t, exec .rev64 s = .next t ∧ CompletedOk s t ∧ UpperResultsZero t ∧
    ∀ i, i < 64 → t.res0.getLsbD i = s.opndLo.getLsbD (63 - i)

/-- The document's swap network computes the same function as the contract of R100, at each width (R101). -/
def Obligations.SwapNetworkEqualsTheReversal : Prop :=
  (∀ x : BitVec 16, swapNetwork x = reverseBits x) ∧ (∀ x : BitVec 32, swapNetwork x = reverseBits x) ∧
    ∀ x : BitVec 64, swapNetwork x = reverseBits x

/-- Reversal twice at the register interface: a host that copies RES0 to OPND_LO and runs the same command gets back the operand
(R105), and RES0 equals the operand exactly for the palindromic bit patterns. -/
def Obligations.ReversalIsAnInvolution : Prop :=
  ∀ (s : State), ∀ q ∈ ([(.rev16, 16), (.rev32, 32), (.rev64, 64)] : List (Instr × Nat)), ∃ t u,
    exec q.1 s = .next t ∧ exec q.1 { t with opndLo := t.res0 } = .next u ∧
    u.res0.toNat = s.opndLo.toNat % 2 ^ q.2 ∧
    (t.res0.toNat = s.opndLo.toNat % 2 ^ q.2 ↔ ∀ i, i < q.2 → s.opndLo.getLsbD i = s.opndLo.getLsbD (q.2 - 1 - i))

/-! ### miller_rabin_primality_tester -/

/-- R120: bit i of PRIME_MASK_64 is 1 exactly when i is prime. -/
def Obligations.PrimeMaskMarksThePrimes : Prop :=
  primeMask64 = 0x28208A20A08A28AC ∧ ∀ i, i < 64 → (primeMask64.getLsbD i = true ↔ i.Prime)

/-- The modular exponentiation by squaring gives the true residue of a^d modulo n (R123). -/
def Obligations.ModularExponentiationIsExact : Prop :=
  ∀ a d n, d < 2 ^ 64 → modExp 64 a d n = a ^ d % n

/-- ISPRIME64 is word 0x10 and answers in RES0 the six-step test of R121 on OPND_LO, told in exact integers. -/
def Obligations.Isprime64GivesTheTestsVerdict : Prop :=
  decodeWord 0x10 = .ok .isprime64 ∧
  ∀ (s : State), ∃ t, exec .isprime64 s = .next t ∧ CompletedOk s t ∧ UpperResultsZero t ∧
    (AcceptedByTest s.opndLo.toNat → t.res0 = 1) ∧ (¬ AcceptedByTest s.opndLo.toNat → t.res0 = 0)

/-- No false negatives: every prime operand gives RES0 = 1 (R125). -/
def Obligations.PrimesAreNeverRejected : Prop :=
  ∀ (s : State), s.opndLo.toNat.Prime → ∃ t, exec .isprime64 s = .next t ∧ t.res0 = 1

/-- Two composite operands for which the verdict is 1 all the same (R125). -/
def Obligations.TwoCompositesAreAccepted : Prop :=
  (∀ (s : State), s.opndLo = 341550071728321 → ∃ t, exec .isprime64 s = .next t ∧ t.res0 = 1) ∧
  (∀ (s : State), s.opndLo = 3825123056546413051 → ∃ t, exec .isprime64 s = .next t ∧ t.res0 = 1) ∧
  341550071728321 = 10670053 * 32010157 ∧ 3825123056546413051 = 149491 * 747451 * 34233211

/-! ### ieee754_float_decomposer -/

/-- FDECOMP32 is word 0x20 and completes for every operand with the six fields of R142, in exact numbers, under the hardware's
P_SIG_FORM = RAW. -/
def Obligations.Fdecomp32ExtractsTheFields : Prop :=
  decodeWord 0x20 = .ok .fdecomp32 ∧
  ∀ (s : State), ∃ t, exec .fdecomp32 s = .next t ∧ CompletedOk s t ∧
    (floatOperand s < 2 ^ 31 → t.res0.toInt = 1) ∧ (2 ^ 31 ≤ floatOperand s → t.res0.toInt = -1) ∧
    t.res1.toInt = (floatOperand s / 2 ^ 23 % 2 ^ 8 : Nat) - 127 ∧
    t.res2.toNat = floatOperand s % 2 ^ 23 ∧ t.res3.toNat = floatOperand s / 2 ^ 31 ∧
    t.res4.toNat = floatOperand s / 2 ^ 23 % 2 ^ 8 ∧ t.res5.toNat = floatOperand s % 2 ^ 23

/-- R143: `significand` is the stored mantissa under RAW, this hardware's value, and has the hidden bit of a non-zero biased
exponent added under HIDDEN_BIT. -/
def Obligations.SignificandUnderBothForms : Prop :=
  Config.pSigForm = .raw ∧
  (∀ b : Bits32, (sigOut .raw b).toNat = b.toNat % 2 ^ 23) ∧
  (∀ b : Bits32, b.toNat / 2 ^ 23 % 2 ^ 8 = 0 → (sigOut .hiddenBit b).toNat = b.toNat % 2 ^ 23) ∧
  (∀ b : Bits32, b.toNat / 2 ^ 23 % 2 ^ 8 ≠ 0 → (sigOut .hiddenBit b).toNat = b.toNat % 2 ^ 23 + 2 ^ 23)

/-- The operand's 32 bits can be rebuilt from FDECOMP32's raw fields, and from its sign, exponent and significand, for every
pattern (R151 (a)). -/
def Obligations.Fdecomp32FieldsRebuildTheOperand : Prop :=
  ∀ (s : State), ∃ t, exec .fdecomp32 s = .next t ∧
    t.res3.toNat * 2 ^ 31 + t.res4.toNat * 2 ^ 23 + t.res5.toNat = floatOperand s ∧
    (1 - t.res0.toInt) / 2 * 2 ^ 31 + (t.res1.toInt + 127) * 2 ^ 23 + (t.res2.toNat : Int) = (floatOperand s : Int)

/-- FPARTS32 is word 0x21. For a finite operand it completes with the value truncated toward zero and the exact remainder, each
a finite binary32 pattern; values are in units of 2^-149. The integer part keeps the operand's sign bit, the fractional part
keeps it when it is not zero and is +0.0 when it is (R145 to R149). -/
def Obligations.Fparts32SplitsFiniteValues : Prop :=
  decodeWord 0x21 = .ok .fparts32 ∧
  ∀ (s : State), isFinite (operand32 s) = true → ∃ t, ∃ ip fp : Bits32, exec .fparts32 s = .next t ∧ CompletedOk s t ∧
    t.res0.toNat = ip.toNat ∧ t.res1.toNat = fp.toNat ∧ t.res2 = 0 ∧ t.res3 = 0 ∧ t.res4 = 0 ∧ t.res5 = 0 ∧
    isFinite ip = true ∧ isFinite fp = true ∧
    valueOf ip = (valueOf (operand32 s)).tdiv (2 ^ 149) * 2 ^ 149 ∧ valueOf ip + valueOf fp = valueOf (operand32 s) ∧
    fSign ip = fSign (operand32 s) ∧ (valueOf fp ≠ 0 → fSign fp = fSign (operand32 s)) ∧ (valueOf fp = 0 → fp = 0#32)

/-- For an infinite operand FPARTS32 completes with the operand as integer part and a NaN as fractional part; for a NaN both parts
are NaNs. Which NaNs is open: the statement holds for every draw (R147, R148). -/
def Obligations.Fparts32PropagatesNaN : Prop :=
  ∀ (s : State), isFinite (operand32 s) = false → ∃ t, ∃ ip fp : Bits32, exec .fparts32 s = .next t ∧ CompletedOk s t ∧
    t.res0.toNat = ip.toNat ∧ t.res1.toNat = fp.toNat ∧ t.res2 = 0 ∧ t.res3 = 0 ∧ t.res4 = 0 ∧ t.res5 = 0 ∧
    isNaN fp = true ∧ (isInf (operand32 s) = true → ip = operand32 s) ∧ (isNaN (operand32 s) = true → isNaN ip = true)

/-- R145: truncation by exponent class. Infinities unchanged, a NaN gives the draw, below 1 in magnitude a zero of the same sign,
from 2^23 on unchanged, else exactly the 150 - e low bits are cleared. It never rounds away from zero. -/
def Obligations.TruncationByExponentClass : Prop :=
  ∀ b : Bits32,
    (isInf b = true → trunc b = b) ∧
    (isNaN b = true → trunc b = nanOut b .integerPart) ∧
    ((fExp b).toNat ≤ 126 → (trunc b).toNat = b.toNat / 2 ^ 31 * 2 ^ 31) ∧
    (150 ≤ (fExp b).toNat → (fExp b).toNat ≤ 254 → trunc b = b) ∧
    (127 ≤ (fExp b).toNat → (fExp b).toNat ≤ 149 →
      (trunc b).toNat = b.toNat / 2 ^ (150 - (fExp b).toNat) * 2 ^ (150 - (fExp b).toNat)) ∧
    (isFinite b = true → fSign (trunc b) = fSign b ∧ (valueOf (trunc b)).natAbs ≤ (valueOf b).natAbs)

/-- R148: every draw is a NaN. -/
def Obligations.EveryDrawIsANaN : Prop :=
  ∀ b k, fExp (nanOut b k) = 255#8 ∧ fMant (nanOut b k) ≠ 0#23

/-! ### decimal_fixed_scale_decomposer -/

/-- R173: DCOMP128 is word 0x30 and, for a valid operand, completes with the significand in RES0 and RES1, the scale in RES2 and
the sign in RES3; for any other operand it completes with MALFORMED_ENCODING and all results 0. -/
def Obligations.Dcomp128ExtractsTheComponents : Prop :=
  decodeWord 0x30 = .ok .dcomp128 ∧
  (∀ (s : State), OperandValid s → ∃ t, exec .dcomp128 s = .next t ∧ CompletedOk s t ∧
    result01 t = operandSig s ∧ t.res2.toNat = operandScale s ∧ t.res3.toNat = operandSign s ∧
    t.res4 = 0 ∧ t.res5 = 0) ∧
  (∀ (s : State), ¬ OperandValid s → ∃ t, exec .dcomp128 s = .next t ∧ CompletedError 2 s t)

/-- R205: MALFORMED_ENCODING is the outcome of the two decimal commands exactly for a scale above 28 or a set reserved flag bit,
and of no other command. -/
def Obligations.MalformedEncodingExactlyForInvalidDecimals : Prop :=
  ∀ (i : Instr) (s : State), ∃ t, exec i s = .next t ∧
    (t.status = 0x102 ↔ (i = .dcomp128 ∨ i = .dparts128) ∧
      (operandScale s > 28 ∨ s.opndHi.toNat / 2 ^ 32 % 2 ^ 16 ≠ 0 ∨ s.opndHi.toNat / 2 ^ 56 % 2 ^ 7 ≠ 0))

/-- R204: DOMAIN_ERROR has one cause: DPARTS128 on a valid negative operand whose fractional part has a significand above 2^96 - 1 at
the operand's scale; then all results are 0. -/
def Obligations.DomainErrorHasOneCause : Prop :=
  ∀ (i : Instr) (s : State), ∃ t, exec i s = .next t ∧
    (t.status = 0x101 ↔ i = .dparts128 ∧ OperandValid s ∧ FractionUnrepresentable s) ∧
    (t.status = 0x101 → CompletedError 1 s t)

/-- R176: DPARTS128 is word 0x31. A valid operand with a representable fractional part completes with integerPart in RES0 and RES1,
fractionalPart as a decimal in the layout of R76 at the operand's scale in RES2 and RES3, and fractionalPartAsInteger in RES4 and
RES5. A malformed operand is reported first, then an unrepresentable fractional part. -/
def Obligations.Dparts128SplitsTheDecimal : Prop :=
  decodeWord 0x31 = .ok .dparts128 ∧
  (∀ (s : State), OperandValid s → ¬ FractionUnrepresentable s → ∃ t, exec .dparts128 s = .next t ∧ CompletedOk s t ∧
    result01 t = operandSig s / 10 ^ operandScale s ∧
    result45 t = operandSig s % 10 ^ operandScale s ∧
    OperandValid (fractionAsOperand t) ∧
    operandScale (fractionAsOperand t) = operandScale s ∧
    (operandSign s = 0 → operandSig (fractionAsOperand t) = operandSig s % 10 ^ operandScale s ∧
      operandSign (fractionAsOperand t) = 0) ∧
    (operandSign s = 1 →
      operandSig (fractionAsOperand t) =
        operandSig s + operandSig s / 10 ^ operandScale s * 10 ^ operandScale s ∧
      operandSign (fractionAsOperand t) = if operandSig s = 0 then 0 else 1)) ∧
  (∀ (s : State), ¬ OperandValid s → ∃ t, exec .dparts128 s = .next t ∧ CompletedError 2 s t) ∧
  (∀ (s : State), OperandValid s → FractionUnrepresentable s → ∃ t, exec .dparts128 s = .next t ∧ CompletedError 1 s t)

/-- R177: the invariants of every DPARTS128 that completes with ERR = 0, over the rationals. The fractional part is read from RES2
and RES3 as a Decimal128 operand, and (d) runs DCOMP128 on it. -/
def Obligations.DecimalPartsReconstructTheValue : Prop :=
  ∀ (s t : State), exec .dparts128 s = .next t → statusErr t.status = 0 → ∀ fv : ℚ,
    fv = decimalValue (operandSig (fractionAsOperand t)) (operandScale (fractionAsOperand t))
      (operandSign (fractionAsOperand t)) →
    result01 t * 10 ^ operandScale s + result45 t = operandSig s ∧
    (result01 t : ℚ) + fv = decimalValue (operandSig s) (operandScale s) (operandSign s) ∧
    (operandSign s = 0 → (result45 t : ℚ) = fv * 10 ^ operandScale s) ∧
    (operandSign s = 1 → operandSig s ≠ 0 → (result45 t : ℚ) ≠ fv * 10 ^ operandScale s) ∧
    (operandSign s = 0 → operandSig (fractionAsOperand t) = result45 t ∧
      operandScale (fractionAsOperand t) = operandScale s ∧
      ∃ u, exec .dcomp128 (fractionAsOperand t) = .next u ∧ u.status = 0x100 ∧ result01 u = result45 t ∧
        u.res2.toNat = operandScale s ∧ u.res3 = 0)
end

