-- ==== Sys2Proof/Laws/State.lean ====
section
/-! SUPPORT. One lemma per field of State per update, so that no later proof unfolds a record update. -/

namespace Sys2Proof.Laws

open Sys2Proof.Machine

/-! ### complete -/

@[simp] theorem complete_opndLo (r0 r1 r2 r3 r4 r5 : Word) (s : State) : (complete r0 r1 r2 r3 r4 r5 s).opndLo = s.opndLo := rfl
@[simp] theorem complete_opndHi (r0 r1 r2 r3 r4 r5 : Word) (s : State) : (complete r0 r1 r2 r3 r4 r5 s).opndHi = s.opndHi := rfl
@[simp] theorem complete_cmd (r0 r1 r2 r3 r4 r5 : Word) (s : State) : (complete r0 r1 r2 r3 r4 r5 s).cmd = s.cmd := rfl
@[simp] theorem complete_status (r0 r1 r2 r3 r4 r5 : Word) (s : State) : (complete r0 r1 r2 r3 r4 r5 s).status = statusOk := rfl
@[simp] theorem complete_res0 (r0 r1 r2 r3 r4 r5 : Word) (s : State) : (complete r0 r1 r2 r3 r4 r5 s).res0 = r0 := rfl
@[simp] theorem complete_res1 (r0 r1 r2 r3 r4 r5 : Word) (s : State) : (complete r0 r1 r2 r3 r4 r5 s).res1 = r1 := rfl
@[simp] theorem complete_res2 (r0 r1 r2 r3 r4 r5 : Word) (s : State) : (complete r0 r1 r2 r3 r4 r5 s).res2 = r2 := rfl
@[simp] theorem complete_res3 (r0 r1 r2 r3 r4 r5 : Word) (s : State) : (complete r0 r1 r2 r3 r4 r5 s).res3 = r3 := rfl
@[simp] theorem complete_res4 (r0 r1 r2 r3 r4 r5 : Word) (s : State) : (complete r0 r1 r2 r3 r4 r5 s).res4 = r4 := rfl
@[simp] theorem complete_res5 (r0 r1 r2 r3 r4 r5 : Word) (s : State) : (complete r0 r1 r2 r3 r4 r5 s).res5 = r5 := rfl
@[simp] theorem complete_pending (r0 r1 r2 r3 r4 r5 : Word) (s : State) : (complete r0 r1 r2 r3 r4 r5 s).pending = s.pending := rfl
@[simp] theorem complete_response (r0 r1 r2 r3 r4 r5 : Word) (s : State) : (complete r0 r1 r2 r3 r4 r5 s).response = s.response := rfl

/-! ### raiseError -/

@[simp] theorem raiseError_opndLo (e : OpError) (s : State) : (raiseError e s).opndLo = s.opndLo := rfl
@[simp] theorem raiseError_opndHi (e : OpError) (s : State) : (raiseError e s).opndHi = s.opndHi := rfl
@[simp] theorem raiseError_cmd (e : OpError) (s : State) : (raiseError e s).cmd = s.cmd := rfl
@[simp] theorem raiseError_status (e : OpError) (s : State) : (raiseError e s).status = statusError e := rfl
@[simp] theorem raiseError_res0 (e : OpError) (s : State) : (raiseError e s).res0 = 0 := rfl
@[simp] theorem raiseError_res1 (e : OpError) (s : State) : (raiseError e s).res1 = 0 := rfl
@[simp] theorem raiseError_res2 (e : OpError) (s : State) : (raiseError e s).res2 = 0 := rfl
@[simp] theorem raiseError_res3 (e : OpError) (s : State) : (raiseError e s).res3 = 0 := rfl
@[simp] theorem raiseError_res4 (e : OpError) (s : State) : (raiseError e s).res4 = 0 := rfl
@[simp] theorem raiseError_res5 (e : OpError) (s : State) : (raiseError e s).res5 = 0 := rfl
@[simp] theorem raiseError_pending (e : OpError) (s : State) : (raiseError e s).pending = s.pending := rfl
@[simp] theorem raiseError_response (e : OpError) (s : State) : (raiseError e s).response = s.response := rfl

/-! ### resetBlock -/

@[simp] theorem resetBlock_opndLo (s : State) : (resetBlock s).opndLo = 0 := rfl
@[simp] theorem resetBlock_opndHi (s : State) : (resetBlock s).opndHi = 0 := rfl
@[simp] theorem resetBlock_cmd (s : State) : (resetBlock s).cmd = 0 := rfl
@[simp] theorem resetBlock_status (s : State) : (resetBlock s).status = 0 := rfl
@[simp] theorem resetBlock_res0 (s : State) : (resetBlock s).res0 = 0 := rfl
@[simp] theorem resetBlock_res1 (s : State) : (resetBlock s).res1 = 0 := rfl
@[simp] theorem resetBlock_res2 (s : State) : (resetBlock s).res2 = 0 := rfl
@[simp] theorem resetBlock_res3 (s : State) : (resetBlock s).res3 = 0 := rfl
@[simp] theorem resetBlock_res4 (s : State) : (resetBlock s).res4 = 0 := rfl
@[simp] theorem resetBlock_res5 (s : State) : (resetBlock s).res5 = 0 := rfl
@[simp] theorem resetBlock_pending (s : State) : (resetBlock s).pending = s.pending := rfl
@[simp] theorem resetBlock_response (s : State) : (resetBlock s).response = .none := rfl

/-! ### resetAborting -/

@[simp] theorem resetAborting_opndLo (s : State) : (resetAborting s).opndLo = 0 := rfl
@[simp] theorem resetAborting_opndHi (s : State) : (resetAborting s).opndHi = 0 := rfl
@[simp] theorem resetAborting_cmd (s : State) : (resetAborting s).cmd = 0 := rfl
@[simp] theorem resetAborting_status (s : State) : (resetAborting s).status = 0 := rfl
@[simp] theorem resetAborting_res0 (s : State) : (resetAborting s).res0 = 0 := rfl
@[simp] theorem resetAborting_res1 (s : State) : (resetAborting s).res1 = 0 := rfl
@[simp] theorem resetAborting_res2 (s : State) : (resetAborting s).res2 = 0 := rfl
@[simp] theorem resetAborting_res3 (s : State) : (resetAborting s).res3 = 0 := rfl
@[simp] theorem resetAborting_res4 (s : State) : (resetAborting s).res4 = 0 := rfl
@[simp] theorem resetAborting_res5 (s : State) : (resetAborting s).res5 = 0 := rfl
@[simp] theorem resetAborting_pending (s : State) : (resetAborting s).pending = s.pending := rfl
@[simp] theorem resetAborting_response (s : State) : (resetAborting s).response = .aborted := rfl

/-! ### issue -/

@[simp] theorem issue_opndLo (s : State) (e : HostEvent) : (s.issue e).opndLo = s.opndLo := rfl
@[simp] theorem issue_opndHi (s : State) (e : HostEvent) : (s.issue e).opndHi = s.opndHi := rfl
@[simp] theorem issue_cmd (s : State) (e : HostEvent) : (s.issue e).cmd = s.cmd := rfl
@[simp] theorem issue_status (s : State) (e : HostEvent) : (s.issue e).status = s.status := rfl
@[simp] theorem issue_res0 (s : State) (e : HostEvent) : (s.issue e).res0 = s.res0 := rfl
@[simp] theorem issue_res1 (s : State) (e : HostEvent) : (s.issue e).res1 = s.res1 := rfl
@[simp] theorem issue_res2 (s : State) (e : HostEvent) : (s.issue e).res2 = s.res2 := rfl
@[simp] theorem issue_res3 (s : State) (e : HostEvent) : (s.issue e).res3 = s.res3 := rfl
@[simp] theorem issue_res4 (s : State) (e : HostEvent) : (s.issue e).res4 = s.res4 := rfl
@[simp] theorem issue_res5 (s : State) (e : HostEvent) : (s.issue e).res5 = s.res5 := rfl
@[simp] theorem issue_pending (s : State) (e : HostEvent) : (s.issue e).pending = e :: s.pending := rfl
@[simp] theorem issue_response (s : State) (e : HostEvent) : (s.issue e).response = s.response := rfl

/-! ### fractionAsOperand -/

@[simp] theorem fractionAsOperand_opndLo (s : State) : (fractionAsOperand s).opndLo = s.res2 := rfl
@[simp] theorem fractionAsOperand_opndHi (s : State) : (fractionAsOperand s).opndHi = s.res3 := rfl
@[simp] theorem fractionAsOperand_cmd (s : State) : (fractionAsOperand s).cmd = s.cmd := rfl
@[simp] theorem fractionAsOperand_status (s : State) : (fractionAsOperand s).status = s.status := rfl
@[simp] theorem fractionAsOperand_res0 (s : State) : (fractionAsOperand s).res0 = s.res0 := rfl
@[simp] theorem fractionAsOperand_res1 (s : State) : (fractionAsOperand s).res1 = s.res1 := rfl
@[simp] theorem fractionAsOperand_res2 (s : State) : (fractionAsOperand s).res2 = s.res2 := rfl
@[simp] theorem fractionAsOperand_res3 (s : State) : (fractionAsOperand s).res3 = s.res3 := rfl
@[simp] theorem fractionAsOperand_res4 (s : State) : (fractionAsOperand s).res4 = s.res4 := rfl
@[simp] theorem fractionAsOperand_res5 (s : State) : (fractionAsOperand s).res5 = s.res5 := rfl
@[simp] theorem fractionAsOperand_pending (s : State) : (fractionAsOperand s).pending = s.pending := rfl
@[simp] theorem fractionAsOperand_response (s : State) : (fractionAsOperand s).response = s.response := rfl

/-! ### writeReg at opndLo -/

@[simp] theorem writeReg_opndLo_opndLo (s : State) (v : Word) : (writeReg s .opndLo v).opndLo = v := rfl
@[simp] theorem writeReg_opndLo_opndHi (s : State) (v : Word) : (writeReg s .opndLo v).opndHi = s.opndHi := rfl
@[simp] theorem writeReg_opndLo_cmd (s : State) (v : Word) : (writeReg s .opndLo v).cmd = s.cmd := rfl
@[simp] theorem writeReg_opndLo_status (s : State) (v : Word) : (writeReg s .opndLo v).status = s.status := rfl
@[simp] theorem writeReg_opndLo_res0 (s : State) (v : Word) : (writeReg s .opndLo v).res0 = s.res0 := rfl
@[simp] theorem writeReg_opndLo_res1 (s : State) (v : Word) : (writeReg s .opndLo v).res1 = s.res1 := rfl
@[simp] theorem writeReg_opndLo_res2 (s : State) (v : Word) : (writeReg s .opndLo v).res2 = s.res2 := rfl
@[simp] theorem writeReg_opndLo_res3 (s : State) (v : Word) : (writeReg s .opndLo v).res3 = s.res3 := rfl
@[simp] theorem writeReg_opndLo_res4 (s : State) (v : Word) : (writeReg s .opndLo v).res4 = s.res4 := rfl
@[simp] theorem writeReg_opndLo_res5 (s : State) (v : Word) : (writeReg s .opndLo v).res5 = s.res5 := rfl
@[simp] theorem writeReg_opndLo_pending (s : State) (v : Word) : (writeReg s .opndLo v).pending = s.pending := rfl
@[simp] theorem writeReg_opndLo_response (s : State) (v : Word) : (writeReg s .opndLo v).response = s.response := rfl

/-! ### writeReg at opndHi -/

@[simp] theorem writeReg_opndHi_opndLo (s : State) (v : Word) : (writeReg s .opndHi v).opndLo = s.opndLo := rfl
@[simp] theorem writeReg_opndHi_opndHi (s : State) (v : Word) : (writeReg s .opndHi v).opndHi = v := rfl
@[simp] theorem writeReg_opndHi_cmd (s : State) (v : Word) : (writeReg s .opndHi v).cmd = s.cmd := rfl
@[simp] theorem writeReg_opndHi_status (s : State) (v : Word) : (writeReg s .opndHi v).status = s.status := rfl
@[simp] theorem writeReg_opndHi_res0 (s : State) (v : Word) : (writeReg s .opndHi v).res0 = s.res0 := rfl
@[simp] theorem writeReg_opndHi_res1 (s : State) (v : Word) : (writeReg s .opndHi v).res1 = s.res1 := rfl
@[simp] theorem writeReg_opndHi_res2 (s : State) (v : Word) : (writeReg s .opndHi v).res2 = s.res2 := rfl
@[simp] theorem writeReg_opndHi_res3 (s : State) (v : Word) : (writeReg s .opndHi v).res3 = s.res3 := rfl
@[simp] theorem writeReg_opndHi_res4 (s : State) (v : Word) : (writeReg s .opndHi v).res4 = s.res4 := rfl
@[simp] theorem writeReg_opndHi_res5 (s : State) (v : Word) : (writeReg s .opndHi v).res5 = s.res5 := rfl
@[simp] theorem writeReg_opndHi_pending (s : State) (v : Word) : (writeReg s .opndHi v).pending = s.pending := rfl
@[simp] theorem writeReg_opndHi_response (s : State) (v : Word) : (writeReg s .opndHi v).response = s.response := rfl

/-! ### writeReg at cmd -/

@[simp] theorem writeReg_cmd_opndLo (s : State) (v : Word) : (writeReg s .cmd v).opndLo = s.opndLo := rfl
@[simp] theorem writeReg_cmd_opndHi (s : State) (v : Word) : (writeReg s .cmd v).opndHi = s.opndHi := rfl
@[simp] theorem writeReg_cmd_cmd (s : State) (v : Word) : (writeReg s .cmd v).cmd = v := rfl
@[simp] theorem writeReg_cmd_status (s : State) (v : Word) : (writeReg s .cmd v).status = s.status := rfl
@[simp] theorem writeReg_cmd_res0 (s : State) (v : Word) : (writeReg s .cmd v).res0 = s.res0 := rfl
@[simp] theorem writeReg_cmd_res1 (s : State) (v : Word) : (writeReg s .cmd v).res1 = s.res1 := rfl
@[simp] theorem writeReg_cmd_res2 (s : State) (v : Word) : (writeReg s .cmd v).res2 = s.res2 := rfl
@[simp] theorem writeReg_cmd_res3 (s : State) (v : Word) : (writeReg s .cmd v).res3 = s.res3 := rfl
@[simp] theorem writeReg_cmd_res4 (s : State) (v : Word) : (writeReg s .cmd v).res4 = s.res4 := rfl
@[simp] theorem writeReg_cmd_res5 (s : State) (v : Word) : (writeReg s .cmd v).res5 = s.res5 := rfl
@[simp] theorem writeReg_cmd_pending (s : State) (v : Word) : (writeReg s .cmd v).pending = s.pending := rfl
@[simp] theorem writeReg_cmd_response (s : State) (v : Word) : (writeReg s .cmd v).response = s.response := rfl

/-- Two states that agree on the frame of a command and on its outcome are equal. -/
theorem state_eq_of_frame_outcome {s t : State} (h : CommandFrame s t) (h' : SameOutcome s t) : t = s := by
  obtain ⟨a, b, c, d, e⟩ := h
  obtain ⟨f, g, h, i, j, k, l⟩ := h'
  cases s; cases t; simp_all

/-- A success completion is `CompletedOk` (R202). -/
theorem completedOk_complete (r0 r1 r2 r3 r4 r5 : Word) (s : State) : CompletedOk s (complete r0 r1 r2 r3 r4 r5 s) :=
  ⟨(by show statusOk = 0x100; decide), rfl, rfl, rfl, rfl, rfl⟩

/-- An error completion is `CompletedError` with the error's code (R201). -/
theorem completedError_raiseError (e : OpError) (s : State) : CompletedError (errCode e).toNat s (raiseError e s) :=
  ⟨by cases e <;> rfl, ⟨rfl, rfl, rfl, rfl, rfl, rfl⟩, rfl, rfl, rfl, rfl, rfl⟩

/-- STATUS after a success, as a number. -/
theorem status_complete (r0 r1 r2 r3 r4 r5 : Word) (s : State) : (complete r0 r1 r2 r3 r4 r5 s).status = 0x100 := by
  show statusOk = 0x100
  decide

end Sys2Proof.Laws
end

