-- ==== Sys2Proof/Laws/Bits.lean ====
section
/-! SUPPORT. Laws of operands, results and bit reversal. -/

namespace Sys2Proof.Laws

open Sys2Proof.Machine

/-- Zero-extension keeps the number (R8). -/
theorem toNat_zext {n : Nat} (h : n ≤ 64) (x : BitVec n) : (zext64 x).toNat = x.toNat := by
  have := x.isLt
  have : 2 ^ n ≤ 2 ^ 64 := Nat.pow_le_pow_right (by norm_num) h
  simp [zext64]; omega

/-- A Boolean result as a number (R78). -/
theorem boolWord_toNat (b : Bool) : (boolWord b).toNat = b.toNat := by cases b <;> rfl

/-- A small signed result reads back as itself (R78). -/
theorem tc64_toInt {k : Int} (h1 : -1000 ≤ k) (h2 : k < 1000) : (tc64 k).toInt = k := by
  rw [tc64, BitVec.toInt_ofInt]; apply Int.bmod_eq_of_le <;> omega

/-- The 32-bit operand as a number (R75). -/
theorem operand32_toNat (s : State) : (operand32 s).toNat = floatOperand s := by
  rw [operand32, BitVec.extractLsb'_toNat, Nat.shiftRight_zero, floatOperand]

/-- Output bit i is input bit n-1-i (R100). -/
theorem getLsbD_reverseBits {n : Nat} (x : BitVec n) (i : Nat) :
    (reverseBits x).getLsbD i = (decide (i < n) && x.getLsbD (n - 1 - i)) := by
  simp only [reverseBits, BitVec.getLsbD_ofFnLE]
  split <;> simp_all

/-- Output bit i is input bit n-1-i, for a position in range (R100). -/
theorem getElem_reverseBits {n : Nat} (x : BitVec n) (i : Nat) (hi : i < n) :
    (reverseBits x)[i] = x.getLsbD (n - 1 - i) := by
  rw [← BitVec.getLsbD_eq_getElem, getLsbD_reverseBits]; simp [hi]

/-- Reversal is its own inverse (R105). -/
theorem reverseBits_reverseBits {n : Nat} (x : BitVec n) : reverseBits (reverseBits x) = x := by
  apply BitVec.eq_of_getLsbD_eq
  intro i hi
  rw [getLsbD_reverseBits, getLsbD_reverseBits]
  have h1 : n - 1 - i < n := by omega
  have h2 : n - 1 - (n - 1 - i) = i := by omega
  simp [hi, h1, h2]

/-- MASK_k has bits set at the positions p with (p div k) even (R101). -/
theorem swapMask_bit : ∀ i : Fin 64,
    (swapMask 1).getLsbD i = decide (i.val / 1 % 2 = 0) ∧ (swapMask 2).getLsbD i = decide (i.val / 2 % 2 = 0) ∧
    (swapMask 4).getLsbD i = decide (i.val / 4 % 2 = 0) ∧ (swapMask 8).getLsbD i = decide (i.val / 8 % 2 = 0) ∧
    (swapMask 16).getLsbD i = decide (i.val / 16 % 2 = 0) ∧ (swapMask 32).getLsbD i = decide (i.val / 32 % 2 = 0) := by decide

/-- A step of the swap network exchanges adjacent k-bit groups (R101). -/
theorem getLsbD_swapStep {n k : Nat} (hn : n ≤ 64) (hk : k ∈ [1,2,4,8,16,32]) (h2 : n % (2 * k) = 0) (x : BitVec n) (i : Nat) (hi : i < n) :
    (swapStep k x).getLsbD i = x.getLsbD (if i / k % 2 = 0 then i + k else i - k) := by
  have hm : ∀ j, j < 64 → (swapMask k).getLsbD j = decide (j / k % 2 = 0) := by
    intro j hj
    have := swapMask_bit ⟨j, hj⟩
    simp only [List.mem_cons, List.not_mem_nil, or_false] at hk
    rcases hk with rfl | rfl | rfl | rfl | rfl | rfl <;> simp_all
  have hk0 : 0 < k := by
    simp only [List.mem_cons, List.not_mem_nil, or_false] at hk; omega
  simp only [swapStep, BitVec.getLsbD_or, BitVec.getLsbD_and, BitVec.getLsbD_ushiftRight, BitVec.getLsbD_shiftLeft, BitVec.getLsbD_setWidth, hi, decide_true, Bool.true_and]
  rw [hm i (by omega)]
  by_cases hc : i / k % 2 = 0
  · by_cases hik : i < k
    · simp [hc, hik, Nat.add_comm]
    · have h3 : (i - k) / k % 2 = 1 := by
        have : i / k = (i - k) / k + 1 := by rw [← Nat.sub_add_cancel (not_lt.mp hik), Nat.add_div_right _ hk0]; simp
        omega
      have h4 : i - k < n := by omega
      simp [hc, hik, hm (i - k) (by omega), h3, Nat.add_comm]
  · have hik : ¬ i < k := by
      intro h; rw [Nat.div_eq_of_lt h] at hc; exact hc rfl
    have h3 : (i - k) / k % 2 = 0 := by
      have : i / k = (i - k) / k + 1 := by rw [← Nat.sub_add_cancel (not_lt.mp hik), Nat.add_div_right _ hk0]; simp
      omega
    have h4 : i - k < n := by omega
    simp [hc, hik, hm (i - k) (by omega), h3, h4]

end Sys2Proof.Laws
end

