-- ==== Sys2Proof/Laws/Decode.lean ====
section
/-! SUPPORT. Laws of byte lanes, decoding and encoding. -/

namespace Sys2Proof.Laws


/-- Byte lanes stand for a number below 256 to their count. -/
theorem natOfLanes_lt (bs : List Byte) : natOfLanes bs < 256 ^ bs.length := by
  induction bs with
  | nil => simp [natOfLanes]
  | cons b bs ih =>
    have hb := b.isLt
    simp only [natOfLanes, List.length_cons, pow_succ]
    omega

/-- An n-byte access has n lanes. -/
theorem lanesOf_length (n v : Nat) : (lanesOf n v).length = n := by
  induction n generalizing v with
  | zero => rfl
  | succ n ih => simp [lanesOf, ih]

/-- Lanes carry the value modulo their width. -/
theorem natOfLanes_lanesOf (n v : Nat) : natOfLanes (lanesOf n v) = v % 256 ^ n := by
  induction n generalizing v with
  | zero => simp [lanesOf, natOfLanes, Nat.mod_one]
  | succ n ih =>
    have h8 : (2 : Nat) ^ 8 = 256 := rfl
    rw [lanesOf, natOfLanes, ih, BitVec.toNat_ofNat, h8, pow_succ, Nat.mul_comm (256 ^ n) 256, Nat.mod_mul]

/-- Lanes are determined by the number they stand for. -/
theorem lanesOf_natOfLanes (bs : List Byte) : lanesOf bs.length (natOfLanes bs) = bs := by
  induction bs with
  | nil => rfl
  | cons b bs ih =>
    have hb := b.isLt
    have h1 : (b.toNat + 256 * natOfLanes bs) / 256 = natOfLanes bs := by omega
    have h2 : BitVec.ofNat 8 (b.toNat + 256 * natOfLanes bs) = b := by
      apply BitVec.eq_of_toNat_eq; simp; omega
    simp [lanesOf, natOfLanes, h1, h2, ih]

/-- A 64-bit value survives the trip through its lanes (R52). -/
theorem wordOfLanes_lanesOf (w : Word) : wordOfLanes (lanesOf 8 w.toNat) = w := by
  apply BitVec.eq_of_toNat_eq
  have := w.isLt
  rw [wordOfLanes, natOfLanes_lanesOf, BitVec.toNat_ofNat]
  omega

/-- Eight lanes survive the trip through their value (R52). -/
theorem lanesOf_wordOfLanes {bs : List Byte} (h : bs.length = 8) : lanesOf 8 (wordOfLanes bs).toNat = bs := by
  have h1 := natOfLanes_lt bs
  rw [h] at h1
  have : (wordOfLanes bs).toNat = natOfLanes bs := by
    simp [wordOfLanes]; omega
  rw [this, ← h, lanesOf_natOfLanes]

/-- A word with RSV = 0 is its OPC field zero-extended (R70). -/
theorem word_eq_of_fields {w : Word} {b : BitVec 8} (h : w.extractLsb' 8 56 = 0#56) (hb : w.extractLsb' 0 8 = b) :
    w = 0#56 ++ b := by
  apply BitVec.eq_of_toNat_eq
  have h1 := congrArg BitVec.toNat h
  have h2 := congrArg BitVec.toNat hb
  have := w.isLt
  have := b.isLt
  simp only [BitVec.extractLsb'_toNat, Nat.shiftRight_eq_div_pow, BitVec.toNat_ofNat] at h1 h2
  have h3 : (0#56 ++ b : BitVec 64).toNat = b.toNat := by
    have h := BitVec.toNat_append (0#56) b
    simpa using h
  rw [show (0#56 ++ b : Word).toNat = b.toNat from h3]
  omega

/-- The opcode map and the opcodes of the encoder agree (R71). -/
theorem decodeOpcode_eq_some {b : BitVec 8} {i : Instr} : decodeOpcode b = some i ↔ b = opcode i := by
  constructor
  · intro h
    unfold decodeOpcode at h
    split at h
    · cases h; assumption
    · repeat' (split at h)
      all_goals first | (cases h; assumption) | cases h
  · rintro rfl; cases i <;> rfl

/-- A word decodes to a command exactly when it is that command's word (R71). -/
theorem decodeWord_eq_ok {w : Word} {i : Instr} : decodeWord w = .ok i ↔ w = encode i := by
  constructor
  · intro h
    unfold decodeWord at h
    split at h
    · cases h
    · rename_i hr
      split at h
      · rename_i j hj
        cases h
        exact word_eq_of_fields (not_not.mp hr) (decodeOpcode_eq_some.mp hj)
      · cases h
  · rintro rfl; cases i <;> rfl

/-- The eight legal words (R71). -/
theorem encode_mem (i : Instr) : encode i ∈ ([0x01, 0x02, 0x03, 0x10, 0x20, 0x21, 0x30, 0x31] : List Word) := by
  cases i <;> decide

/-- A word is rejected exactly when it is none of the eight (R79). -/
theorem decodeWord_error_iff {w : Word} :
    (∃ r, decodeWord w = .error r) ↔ w ∉ ([0x01, 0x02, 0x03, 0x10, 0x20, 0x21, 0x30, 0x31] : List Word) := by
  constructor
  · rintro ⟨r, h⟩ hm
    simp only [List.mem_cons, List.not_mem_nil, or_false] at hm
    rcases hm with rfl | rfl | rfl | rfl | rfl | rfl | rfl | rfl <;> cases h
  · intro h
    cases hd : decodeWord w with
    | error r => exact ⟨r, rfl⟩
    | ok i => exact absurd (decodeWord_eq_ok.mp hd ▸ encode_mem i) h

end Sys2Proof.Laws
end

