-- ==== Sys2Proof/Laws/Bus.lean ====
section
/-! SUPPORT. What a step, a host event and a completion can do, each said once. -/

namespace Sys2Proof.Laws

open Sys2Proof.Machine

/-! ### The step -/

/-- The next event is the one issued last. -/
@[simp] theorem step_issue (s : State) (e : HostEvent) : step (s.issue e) = acceptEvent e s := rfl

/-- A step takes the first pending event. -/
theorem step_of_pending {s : State} {e : HostEvent} {rest : List HostEvent} (h : s.pending = e :: rest) :
    step s = acceptEvent e { s with pending := rest } := by simp [step, h]

/-- A step with nothing pending changes nothing. -/
theorem step_of_idle {s : State} (h : s.pending = []) : step s = .next s := by simp [step, h]

theorem run_zero (s : State) : run 0 s = .next s := rfl

/-- A run goes on from the state its first step answers. -/
theorem run_succ {s t : State} (h : step s = .next t) (k : Nat) : run (k + 1) s = run k t := by
  simp only [run, h]

/-! ### Executing a command word -/

theorem execute_ok {w : Word} {i : Instr} (h : decodeWord w = .ok i) (s : State) : execute w s = exec i s := by
  simp [execute, h]

theorem execute_error {w : Word} {r : DecodeReject} (h : decodeWord w = .error r) (s : State) :
    execute w s = .next (raiseError .illegalCommand s) := by
  simp [execute, h]

/-- Every command ends in one of the two completions, an error being one it can raise (R200, R203). -/
theorem exec_cases (i : Instr) (s : State) :
    (∃ r0 r1 r2 r3 r4 r5, exec i s = .next (complete r0 r1 r2 r3 r4 r5 s)) ∨
      ∃ e, canRaise i e ∧ exec i s = .next (raiseError e s) := by
  cases i with
  | rev16 => exact .inl ⟨_, _, _, _, _, _, rfl⟩
  | rev32 => exact .inl ⟨_, _, _, _, _, _, rfl⟩
  | rev64 => exact .inl ⟨_, _, _, _, _, _, rfl⟩
  | isprime64 => exact .inl ⟨_, _, _, _, _, _, rfl⟩
  | fdecomp32 => exact .inl ⟨_, _, _, _, _, _, rfl⟩
  | fparts32 => exact .inl ⟨_, _, _, _, _, _, rfl⟩
  | dcomp128 =>
    simp only [exec, execDcomp128, checkDecimal]
    split
    · rename_i e he
      refine .inr ⟨e, ?_, rfl⟩
      split at he
      · cases he; trivial
      · split at he
        · cases he; trivial
        · cases he
    · exact .inl ⟨_, _, _, _, _, _, rfl⟩
  | dparts128 =>
    simp only [exec, execDparts128, checkDecimal, fracDecimal]
    split
    · rename_i e he
      refine .inr ⟨e, ?_, rfl⟩
      split at he
      · cases he; trivial
      · split at he
        · cases he; trivial
        · cases he
    · split
      · rename_i e he
        refine .inr ⟨e, ?_, rfl⟩
        split at he
        · cases he; trivial
        · cases he
      · exact .inl ⟨_, _, _, _, _, _, rfl⟩

/-- Every command word ends in one of the two completions (R72, R200). -/
theorem execute_cases (w : Word) (s : State) :
    (∃ r0 r1 r2 r3 r4 r5, execute w s = .next (complete r0 r1 r2 r3 r4 r5 s)) ∨
      ∃ e, execute w s = .next (raiseError e s) := by
  cases h : decodeWord w with
  | ok i =>
    rw [execute_ok h]
    rcases exec_cases i s with h | ⟨e, -, h⟩
    · exact .inl h
    · exact .inr ⟨e, h⟩
  | error r => exact .inr ⟨_, execute_error h s⟩

/-- A command word completes and leaves all but STATUS and the results alone. -/
theorem execute_next (w : Word) (s : State) : ∃ t, execute w s = .next t ∧ CommandFrame s t := by
  rcases execute_cases w s with ⟨_, _, _, _, _, _, h⟩ | ⟨_, h⟩ <;> exact ⟨_, h, rfl, rfl, rfl, rfl, rfl⟩

/-! ### Register selection -/

theorem selectReg_of_reg (r : Reg) : selectReg (regOffset r) 8 = .ok r := by cases r <;> rfl

theorem regOfIndex_some {i : Nat} {r : Reg} (h : regOfIndex i = some r) : i = regIndex r := by
  match i, h with
  | 0, h => cases h; rfl
  | 1, h => cases h; rfl
  | 2, h => cases h; rfl
  | 3, h => cases h; rfl
  | 4, h => cases h; rfl
  | 5, h => cases h; rfl
  | 6, h => cases h; rfl
  | 7, h => cases h; rfl
  | 8, h => cases h; rfl
  | 9, h => cases h; rfl

/-- An access that selects a register is 8 bytes wide and at the register's offset (R53, R54). -/
theorem selectReg_ok {o width : Nat} {r : Reg} (h : selectReg o width = .ok r) : width = 8 ∧ o = regOffset r := by
  unfold selectReg at h
  split at h
  · cases h
  · rename_i h1
    split at h
    · cases h
    · rename_i h2
      split at h
      · rename_i q hq
        cases h
        have := regOfIndex_some hq
        refine ⟨not_not.mp h1, ?_⟩
        unfold regOffset; omega
      · cases h

/-- An access in the window that selects no register has one of the causes of R53 to R55. -/
theorem selectReg_error {o width : Nat} {c : BusErrorCause} (h : selectReg o width = .error c) (ho : o < 128) :
    width ≠ 8 ∨ o % 8 ≠ 0 ∨ 80 ≤ o := by
  by_contra hc
  push Not at hc
  obtain ⟨h1, h2, h3⟩ := hc
  obtain ⟨i, rfl⟩ : ∃ i, o = 8 * i := ⟨o / 8, by omega⟩
  have : i < 10 := by omega
  subst h1
  interval_cases i <;> simp [selectReg, regOfIndex] at h

/-! ### Host events -/

/-- A register read answers the register and changes nothing (R55). -/
theorem acceptEvent_readOf (r : Reg) (s : State) :
    acceptEvent (readOf r) s = .next { s with response := .data (readReg s r) } := by
  cases r <;> rfl

theorem hostWrite_reg {r : Reg} {lanes : List Byte} (h : lanes.length = 8) (s : State) :
    hostWrite (regOffset r) lanes s =
      if hostWritable r then writeAccepted r (wordOfLanes lanes) s else .fault (.busError .readOnly) := by
  rw [hostWrite, h, selectReg_of_reg]

/-- An eight-lane write at a register's offset (R55). -/
theorem acceptEvent_write {r : Reg} {lanes : List Byte} (h : lanes.length = 8) (s : State) :
    acceptEvent (.write (regOffset r) lanes) s =
      if hostWritable r then writeAccepted r (wordOfLanes lanes) s else .fault (.busError .readOnly) := by
  have hin : inWindow (regOffset r) = true := by cases r <;> rfl
  simp only [acceptEvent, hin, if_true]
  exact hostWrite_reg h s

/-- A register write of a 64-bit value (R55). -/
theorem acceptEvent_writeOf (r : Reg) (v : Word) (s : State) :
    acceptEvent (writeOf r v) s = if hostWritable r then writeAccepted r v s else .fault (.busError .readOnly) := by
  rw [writeOf, acceptEvent_write (lanesOf_length 8 _), wordOfLanes_lanesOf]

/-- A CMD write stores the word and executes it (R55). -/
theorem acceptEvent_writeCmd (w : Word) (s : State) :
    acceptEvent (writeOf .cmd w) s = execute w { s with cmd := w, response := .accepted } := by
  rw [acceptEvent_writeOf]; rfl

/-- Everything an event can do: change no register; reset them; write a register the host may write; or, when it is not
legal, fault. -/
theorem acceptEvent_cases (e : HostEvent) (s : State) :
    (∃ p, acceptEvent e s = .next { s with response := p }) ∨
    (IsReset e ∧ ∃ p, acceptEvent e s = .next { State.reset with pending := s.pending, response := p }) ∨
    (∃ r v, hostWritable r = true ∧ IsWriteOf r e ∧ acceptEvent e s = writeAccepted r v s) ∨
    (¬ LegalEvent e ∧ ∃ c, acceptEvent e s = .fault (.busError c)) := by
  cases e with
  | read o width =>
    simp only [acceptEvent]
    split
    · rename_i hw
      simp [inWindow] at hw
      unfold hostRead
      split
      · rename_i c hc
        refine .inr (.inr (.inr ⟨?_, _, rfl⟩))
        have := selectReg_error hc (by omega)
        intro hl; have := hl hw.1 hw.2; omega
      · exact .inl ⟨_, rfl⟩
    · exact .inl ⟨_, rfl⟩
  | write o lanes =>
    simp only [acceptEvent]
    split
    · rename_i hw
      simp [inWindow] at hw
      unfold hostWrite
      split
      · rename_i c hc
        refine .inr (.inr (.inr ⟨?_, _, rfl⟩))
        have := selectReg_error hc (by omega)
        intro hl; have := hl hw.1 hw.2; omega
      · rename_i r hr
        have ⟨h1, h2⟩ := selectReg_ok hr
        split
        · rename_i hwr
          refine .inr (.inr (.inl ⟨r, _, hwr, ?_, rfl⟩))
          show o = regOffset r
          omega
        · rename_i hwr
          refine .inr (.inr (.inr ⟨?_, _, rfl⟩))
          intro hl; have := (hl hw.1 hw.2).2.2
          have : regOffset r < 24 := by omega
          cases r <;> simp [regOffset, regIndex, hostWritable] at *
    · exact .inl ⟨_, rfl⟩
  | reset => exact .inr (.inl ⟨trivial, _, rfl⟩)
  | resetDuringCommand w => exact .inr (.inl ⟨trivial, _, rfl⟩)

/-- A legal event is accepted, and the events after it stay pending. -/
theorem acceptEvent_legal {e : HostEvent} (h : LegalEvent e) (s : State) :
    ∃ t, acceptEvent e s = .next t ∧ t.pending = s.pending := by
  rcases acceptEvent_cases e s with ⟨p, h'⟩ | ⟨-, p, h'⟩ | ⟨r, v, hr, -, h'⟩ | ⟨hn, -⟩
  · exact ⟨_, h', rfl⟩
  · exact ⟨_, h', rfl⟩
  · rw [h']
    cases r with
    | cmd =>
      obtain ⟨t, h, hf⟩ := execute_next v (writeReg { s with response := .accepted } .cmd v)
      exact ⟨t, h, hf.2.2.2.1⟩
    | _ => exact ⟨_, rfl, rfl⟩
  · exact absurd h hn

/-- A run over register reads only changes the response. -/
theorem run_reads (rs : List HostEvent) (h : ∀ e ∈ rs, ∃ r, e = readOf r) (k : Nat) (s : State) (rest : List HostEvent)
    (hp : s.pending = rs ++ rest) : ∃ p, run (rs.length + k) s = run k { s with pending := rest, response := p } := by
  induction rs generalizing s with
  | nil =>
    have : ({ s with pending := rest, response := s.response } : State) = s := by cases s; simp_all
    exact ⟨s.response, by rw [this]; simp⟩
  | cons e rs ih =>
    obtain ⟨r, rfl⟩ := h e (by simp)
    have hst : step s = .next { s with pending := rs ++ rest, response := .data (readReg { s with pending := rs ++ rest } r) } := by
      rw [step_of_pending hp, acceptEvent_readOf]; rfl
    obtain ⟨p, hp'⟩ := ih (fun e he => h e (by simp [he]))
      { s with pending := rs ++ rest, response := .data (readReg { s with pending := rs ++ rest } r) } rfl
    refine ⟨p, ?_⟩
    rw [List.length_cons, show rs.length + 1 + k = (rs.length + k) + 1 by omega, run_succ hst, hp']

/-! ### Reset and consistency -/

/-- Every register reads 0 in the reset state, whatever is pending (R33). -/
theorem readReg_reset (r : Reg) (q : List HostEvent) (p : Response) :
    readReg { State.reset with pending := q, response := p } r = 0 := by
  cases r <;> simp [readReg, State.reset]

/-- Consistency depends on CMD, STATUS and the results only. -/
theorem consistent_congr {s t : State} (h : Consistent s) (hc : t.cmd = s.cmd) (ho : SameOutcome s t) : Consistent t := by
  obtain ⟨a, b, c, d, e, f, g⟩ := ho
  have hcompleted : CompletedState s → CompletedState t := by
    unfold CompletedState
    rw [hc]
    split
    · rename_i i hi
      cases i <;> simp only [ResultShape, UpperResultsZero, ResultsZero, a, b, c, d, e, f, g] <;> exact id
    · simp only [ResultsZero, UpperResultsZero, a, b, c, d, e, f, g]; exact id
  rcases h with h | h
  · left; simpa only [ResultsZero, UpperResultsZero, a, b, c, d, e, f, g, hc] using h
  · exact .inr (hcompleted h)

/-- STATUS in a completed state. -/
theorem status_of_completed {s : State} (h : CompletedState s) :
    s.status = statusOk ∨ ∃ e, s.status = statusError e ∧ ResultsZero s := by
  unfold CompletedState at h
  split at h
  · rcases h with ⟨h, -⟩ | ⟨e, -, h, hz⟩
    · exact .inl h
    · exact .inr ⟨e, h, hz⟩
  · exact .inr ⟨_, h⟩

end Sys2Proof.Laws
end

