-- ==== Sys2Proof/Laws/Decimal.lean ====
section
/-! SUPPORT. Laws of Decimal128 operands: their fields as numbers. -/

namespace Sys2Proof.Laws

open Sys2Proof.Machine

/-- The operand as one number (R76). -/
theorem operandDecimal_toNat (s : State) : (operandDecimal s).toNat = s.opndHi.toNat * 2 ^ 64 + s.opndLo.toNat := by
  have h := BitVec.toNat_append s.opndHi s.opndLo
  have := s.opndLo.isLt
  rw [operandDecimal]
  rw [show (s.opndHi ++ s.opndLo : Bits128).toNat = _ from h]
  rw [Nat.shiftLeft_eq]
  rw [mul_comm, Nat.two_pow_add_eq_or_of_lt this]

/-- The significand as a number (R76). -/
theorem decSig_toNat (d : Bits128) : decSig d = d.toNat % 2 ^ 96 := by simp [decSig]

/-- The flags word as a number (R76). -/
theorem decFlags_toNat (d : Bits128) : (decFlags d).toNat = d.toNat / 2 ^ 96 := by
  have := d.isLt
  simp [decFlags, Nat.shiftRight_eq_div_pow]; omega

/-- The scale as a number (R76). -/
theorem decScale_toNat (d : Bits128) : decScale d = d.toNat / 2 ^ 112 % 2 ^ 8 := by
  simp only [decScale, BitVec.extractLsb'_toNat, decFlags_toNat, Nat.shiftRight_eq_div_pow]
  omega

/-- The sign as a number (R76). -/
theorem decSign_toNat (d : Bits128) : decSign d = decide (d.toNat / 2 ^ 127 = 1) := by
  have := d.isLt
  rw [decSign, BitVec.getLsbD, Nat.testBit_eq_decide_div_mod_eq, decFlags_toNat]
  congr 1
  apply propext
  omega

/-- The significand in terms of the operand registers (R76). -/
theorem decSig_operand (s : State) : decSig (operandDecimal s) = operandSig s := by
  have := s.opndLo.isLt
  rw [decSig_toNat, operandDecimal_toNat, operandSig]; omega

/-- The scale in terms of the operand registers (R76). -/
theorem decScale_operand (s : State) : decScale (operandDecimal s) = operandScale s := by
  have := s.opndLo.isLt
  rw [decScale_toNat, operandDecimal_toNat, operandScale]; omega

/-- The sign in terms of the operand registers (R76). -/
theorem decSign_operand (s : State) : decSign (operandDecimal s) = decide (operandSign s = 1) := by
  have := s.opndLo.isLt
  rw [decSign_toNat, operandDecimal_toNat, operandSign]; congr 1; apply propext; omega

/-- A field of the flags word as a number (R76). -/
theorem decFlags_field_toNat (d : Bits128) (a n : Nat) : ((decFlags d).extractLsb' a n).toNat = d.toNat / 2 ^ 96 / 2 ^ a % 2 ^ n := by
  rw [BitVec.extractLsb'_toNat, decFlags_toNat, Nat.shiftRight_eq_div_pow]

/-- The check answers ok or MalformedEncoding (R171). -/
theorem checkDecimal_cases (d : Bits128) : checkDecimal d = .ok () ∨ checkDecimal d = .error .malformedEncoding := by
  unfold checkDecimal; split
  · exact .inr rfl
  · split
    · exact .inr rfl
    · exact .inl rfl

/-- When the check passes (R171). -/
theorem checkDecimal_ok (d : Bits128) : checkDecimal d = .ok () ↔
    d.toNat / 2 ^ 96 % 2 ^ 16 = 0 ∧ d.toNat / 2 ^ 120 % 2 ^ 7 = 0 ∧ decScale d ≤ 28 := by
  have e1 : (decFlags d).extractLsb' 0 16 ≠ 0#16 ↔ ¬ d.toNat / 2 ^ 96 % 2 ^ 16 = 0 := by
    rw [ne_eq, ← BitVec.toNat_inj, decFlags_field_toNat]; simp
  have e2 : (decFlags d).extractLsb' 24 7 ≠ 0#7 ↔ ¬ d.toNat / 2 ^ 120 % 2 ^ 7 = 0 := by
    rw [ne_eq, ← BitVec.toNat_inj, decFlags_field_toNat, Nat.div_div_eq_div_mul]; simp
  unfold checkDecimal
  simp only [e1, e2]
  split
  · rename_i h
    constructor
    · intro h'; cases h'
    · rintro ⟨h1, h2, -⟩; rcases h with h | h <;> contradiction
  · rename_i h
    push Not at h
    split
    · constructor
      · intro h'; cases h'
      · rintro ⟨h1, h2, h3⟩; omega
    · exact ⟨fun _ => ⟨h.1, h.2, by omega⟩, fun _ => rfl⟩

/-- The check on the operand registers (R76, R171). -/
theorem checkDecimal_operand (s : State) : checkDecimal (operandDecimal s) = .ok () ↔ OperandValid s := by
  have := s.opndLo.isLt
  rw [checkDecimal_ok, decScale_operand, operandDecimal_toNat, OperandValid]
  constructor <;> rintro ⟨h1, h2, h3⟩ <;> refine ⟨?_, ?_, h3⟩ <;> omega

/-- The significand has 96 bits (R76). -/
theorem operandSig_lt (s : State) : operandSig s < 2 ^ 96 := by
  have := s.opndLo.isLt
  rw [operandSig]; omega

/-- The sign is one bit (R76). -/
theorem operandSign_cases (s : State) : operandSign s = 0 ∨ operandSign s = 1 := by
  have := s.opndHi.isLt
  rw [operandSign]; omega

/-- A 96-bit result reads back from its two registers (R77). -/
theorem high32_low64 (v : Nat) (h : v < 2 ^ 96) : (high32 v).toNat * 2 ^ 64 + (low64 v).toNat = v := by
  have e1 : (high32 v).toNat = v / 2 ^ 64 := by
    rw [high32, toNat_zext (by norm_num), BitVec.extractLsb'_toNat, Nat.shiftRight_eq_div_pow, BitVec.toNat_ofNat]; omega
  have e2 : (low64 v).toNat = v % 2 ^ 64 := by
    rw [low64, BitVec.extractLsb'_toNat, BitVec.toNat_ofNat, Nat.shiftRight_zero]; omega
  rw [e1, e2]; omega

/-- A packed decimal as a number (R76, R175). -/
theorem packDecimal_toNat (b : Bool) (k v : Nat) (hk : k ≤ 28) (hv : v < 2 ^ 96) :
    (packDecimal b k v).toNat = b.toNat * 2 ^ 127 + k * 2 ^ 112 + v := by
  have hf : ((BitVec.ofNat 32 k <<< 16) ||| ((BitVec.ofBool b).setWidth 32 <<< 31)).toNat = k * 2 ^ 16 + b.toNat * 2 ^ 31 := by
    cases b <;> interval_cases k <;> decide
  rw [packDecimal, show ∀ (x : BitVec 32) (y : BitVec 96), (x ++ y : Bits128).toNat = x.toNat * 2 ^ 96 + y.toNat from ?_, hf]
  · simp only [BitVec.toNat_ofNat]; rw [Nat.mod_eq_of_lt hv]; ring
  · intro x y
    have h := BitVec.toNat_append x y
    rw [show (x ++ y : Bits128).toNat = _ from h, Nat.shiftLeft_eq, mul_comm, Nat.two_pow_add_eq_or_of_lt y.isLt]

/-- A state whose operand registers hold the halves of d has the operand d (R76). -/
theorem operandDecimal_of_halves (t : State) (d : Bits128) (h0 : t.opndLo = d.extractLsb' 0 64) (h1 : t.opndHi = d.extractLsb' 64 64) : operandDecimal t = d := by
  apply BitVec.eq_of_toNat_eq
  have := d.isLt
  rw [operandDecimal_toNat, h0, h1, BitVec.extractLsb'_toNat, BitVec.extractLsb'_toNat, Nat.shiftRight_eq_div_pow, Nat.shiftRight_eq_div_pow]
  omega

/-- A packed decimal used as an operand has the fields it was packed from (R76, R77, R175). -/
theorem operand_of_packDecimal (t : State) (b : Bool) (k v : Nat) (hk : k ≤ 28) (hv : v < 2 ^ 96)
   (h0 : t.opndLo = (packDecimal b k v).extractLsb' 0 64) (h1 : t.opndHi = (packDecimal b k v).extractLsb' 64 64) :
   OperandValid t ∧ operandScale t = k ∧ operandSig t = v ∧ operandSign t = b.toNat := by
  have hd := operandDecimal_of_halves t _ h0 h1
  have hn := packDecimal_toNat b k v hk hv
  have hb : b.toNat ≤ 1 := Bool.toNat_le b
  have hs : operandScale t = k := by rw [← decScale_operand, hd, decScale_toNat, hn]; omega
  refine ⟨?_, hs, ?_, ?_⟩
  · rw [← checkDecimal_operand, checkDecimal_ok, hd, ← hd, decScale_operand, hs, hd, hn]
    refine ⟨?_, ?_, hk⟩ <;> omega
  · rw [← decSig_operand, hd, decSig_toNat, hn]; omega
  · have h := decSign_operand t
    rw [hd, decSign_toNat, hn] at h
    rcases operandSign_cases t with h' | h' <;> simp [h'] at h ⊢ <;> omega

end Sys2Proof.Laws
end

