-- ==== Sys2Proof/Laws/Float.lean ====
section
/-! SUPPORT. Laws of binary32 patterns: their fields as numbers, packing, clearing low bits and encoding exact values. -/

namespace Sys2Proof.Laws

open Sys2Proof.Machine

/-- The biased exponent as a number (R140). -/
theorem fExp_toNat (b : Bits32) : (fExp b).toNat = b.toNat / 2 ^ 23 % 2 ^ 8 := by
  rw [fExp, BitVec.extractLsb'_toNat, Nat.shiftRight_eq_div_pow]

/-- The stored mantissa as a number (R140). -/
theorem fMant_toNat (b : Bits32) : (fMant b).toNat = b.toNat % 2 ^ 23 := by
  rw [fMant, BitVec.extractLsb'_toNat, Nat.shiftRight_zero]

/-- The sign bit in terms of the pattern as a number (R140). -/
theorem fSign_toNat (b : Bits32) : fSign b = decide (b.toNat / 2 ^ 31 = 1) := by
  have := b.isLt
  rw [fSign, BitVec.getLsbD, Nat.testBit_eq_decide_div_mod_eq]; congr 1; apply propext; omega

/-- A packed pattern as a number (R140). -/
theorem packFloat_toNat (b : Bool) (e : BitVec 8) (m : BitVec 23) : (packFloat b e m).toNat = b.toNat * 2 ^ 31 + e.toNat * 2 ^ 23 + m.toNat := by
  have h1 := BitVec.toNat_append (BitVec.ofBool b) e
  have h2 := BitVec.toNat_append (BitVec.ofBool b ++ e) m
  have := m.isLt
  have := e.isLt
  rw [packFloat, show ((BitVec.ofBool b ++ e ++ m : Bits32)).toNat = _ from h2, h1]
  simp only [Nat.shiftLeft_eq]
  have e1 : (BitVec.ofBool b).toNat * 2 ^ 8 ||| e.toNat = (BitVec.ofBool b).toNat * 2 ^ 8 + e.toNat := by
    rw [mul_comm, Nat.two_pow_add_eq_or_of_lt e.isLt]
  rw [e1]
  have e2 : ∀ a, a * 2 ^ 23 ||| m.toNat = a * 2 ^ 23 + m.toNat := by
    intro a; rw [mul_comm, Nat.two_pow_add_eq_or_of_lt m.isLt]
  rw [e2]
  cases b
  · simp
  · simp; omega

/-- The exponent of a packed pattern (R140). -/
theorem fExp_packFloat (b : Bool) (e : BitVec 8) (m : BitVec 23) : fExp (packFloat b e m) = e := by
  apply BitVec.eq_of_toNat_eq
  have := m.isLt; have := e.isLt; have := Bool.toNat_le b
  rw [fExp_toNat, packFloat_toNat]; omega

/-- The mantissa of a packed pattern (R140). -/
theorem fMant_packFloat (b : Bool) (e : BitVec 8) (m : BitVec 23) : fMant (packFloat b e m) = m := by
  apply BitVec.eq_of_toNat_eq
  have := m.isLt; have := e.isLt; have := Bool.toNat_le b
  rw [fMant_toNat, packFloat_toNat]; omega

/-- The sign of a packed pattern (R140). -/
theorem fSign_packFloat (b : Bool) (e : BitVec 8) (m : BitVec 23) : fSign (packFloat b e m) = b := by
  have := m.isLt; have := e.isLt
  rw [fSign_toNat, packFloat_toNat]; cases b <;> simp <;> omega

/-- Finite means a biased exponent of at most 254 (R141). -/
theorem isFinite_iff (b : Bits32) : isFinite b = true ↔ (fExp b).toNat ≤ 254 := by
  have := (fExp b).isLt
  rw [isFinite, bne_iff_ne, ne_eq, ← BitVec.toNat_inj]
  show ¬ _ = 255 ↔ _
  omega

/-- A finite pattern is no infinity and no NaN (R141). -/
theorem not_inf_nan_of_isFinite {b : Bits32} (h : isFinite b = true) : isInf b = false ∧ isNaN b = false := by
  rw [isFinite, bne_iff_ne] at h
  have : (fExp b == 255#8) = false := by simpa using h
  simp [isInf, isNaN, this]

/-- The magnitude from the pattern as a number (R141). -/
theorem magnitude_toNat (b : Bits32) : magnitude b = if (fExp b).toNat = 0 then b.toNat % 2 ^ 23 else (2 ^ 23 + b.toNat % 2 ^ 23) * 2 ^ ((fExp b).toNat - 1) := by
  rw [magnitude, fMant_toNat]
  have : fExp b = 0#8 ↔ (fExp b).toNat = 0 := by rw [← BitVec.toNat_inj]; rfl
  simp only [this]

/-- Clearing the k low bits (R145). -/
theorem clear_low_toNat (b : Bits32) (k : Nat) : (b &&& ~~~(BitVec.ofNat 32 (2 ^ k - 1))).toNat = b.toNat / 2 ^ k * 2 ^ k := by
  have : (b &&& ~~~(BitVec.ofNat 32 (2 ^ k - 1))) = (b >>> k) <<< k := by
    apply BitVec.eq_of_getLsbD_eq
    intro i hi
    have hb : (BitVec.ofNat 32 (2 ^ k - 1)).getLsbD i = decide (i < k) := by
      rw [BitVec.getLsbD_ofNat, Nat.testBit_two_pow_sub_one]; simp [hi]
    simp only [BitVec.getLsbD_and, BitVec.getLsbD_not, hb, BitVec.getLsbD_shiftLeft, BitVec.getLsbD_ushiftRight, hi, decide_true, Bool.true_and]
    by_cases h : i < k
    · simp [h]
    · have : k + (i - k) = i := by omega
      simp [h, this]
  rw [this, BitVec.toNat_shiftLeft, BitVec.toNat_ushiftRight, Nat.shiftRight_eq_div_pow, Nat.shiftLeft_eq]
  apply Nat.mod_eq_of_lt
  have := Nat.div_mul_le_self b.toNat (2 ^ k)
  have := b.isLt
  omega

/-- The magnitude is the absolute value. -/
theorem valueOf_natAbs (b : Bits32) : (valueOf b).natAbs = magnitude b := by
  rw [valueOf]; split <;> simp

/-- A value is its sign times its magnitude (R141). -/
theorem valueOf_sign (b : Bits32) : valueOf b = (if fSign b then -1 else 1) * (magnitude b : Int) := by
  rw [valueOf]; split <;> simp

/-- Encoding an exactly representable value gives a finite pattern of that value and sign (R14). -/
theorem bits32_spec (z : Int) (c j : Nat) (hz : z.natAbs = c * 2 ^ j) (hc : c < 2 ^ 24) (hj : j ≤ 253) :
    valueOf (bits32 z) = z ∧ isFinite (bits32 z) = true ∧ fSign (bits32 z) = decide (z < 0) := by
  have sgn : ∀ b : Bits32, magnitude b = z.natAbs → fSign b = decide (z < 0) → valueOf b = z := by
    intro b h1 h2
    rw [valueOf, h2, h1]
    by_cases h : z < 0
    · rw [if_pos (decide_eq_true h)]; omega
    · rw [if_neg (by simpa using h)]; omega
  unfold bits32
  split
  · rename_i h
    have hs : fSign (packFloat (decide (z < 0)) 0#8 (BitVec.ofNat 23 z.natAbs)) = decide (z < 0) := fSign_packFloat ..
    refine ⟨sgn _ ?_ hs, ?_, hs⟩
    · rw [magnitude, fExp_packFloat, fMant_packFloat]
      simp only [if_true, BitVec.toNat_ofNat]
      exact Nat.mod_eq_of_lt h
    · rw [isFinite, fExp_packFloat]; rfl
  · rename_i h
    have hz0 : z.natAbs ≠ 0 := by omega
    set L := Nat.log2 z.natAbs with hL
    have hL1 : 2 ^ L ≤ z.natAbs := Nat.log2_self_le hz0
    have hL2 : z.natAbs < 2 ^ (L + 1) := Nat.lt_log2_self
    have hL23 : 23 ≤ L := by
      by_contra hc'
      have : 2 ^ (L + 1) ≤ 2 ^ 23 := Nat.pow_le_pow_right (by norm_num) (by omega)
      omega
    have hLj : L < j + 24 := by
      have : 2 ^ L < 2 ^ (j + 24) := by
        calc 2 ^ L ≤ c * 2 ^ j := by rw [← hz]; exact hL1
          _ < 2 ^ 24 * 2 ^ j := Nat.mul_lt_mul_of_pos_right hc (by positivity)
          _ = 2 ^ (j + 24) := by rw [← pow_add]; congr 1; omega
      exact (Nat.pow_lt_pow_iff_right (by norm_num)).mp this
    -- z.natAbs = q * 2^(L-23), 2^23 ≤ q < 2^24
    obtain ⟨q, hq⟩ : 2 ^ (L - 23) ∣ z.natAbs := by
      rw [hz]; exact Dvd.dvd.mul_left (pow_dvd_pow 2 (by omega)) c
    have hq' : z.natAbs / 2 ^ (L - 23) = q := by rw [hq]; exact Nat.mul_div_cancel_left _ (by positivity)
    have h1 : 2 ^ L = 2 ^ (L - 23) * 2 ^ 23 := by rw [← pow_add]; congr 1; omega
    have h2 : 2 ^ (L + 1) = 2 ^ (L - 23) * 2 ^ 24 := by rw [← pow_add]; congr 1; omega
    have hp : 0 < 2 ^ (L - 23) := by positivity
    have hq1 : 2 ^ 23 ≤ q := by
      rw [h1, hq] at hL1; exact Nat.le_of_mul_le_mul_left hL1 hp
    have hq2 : q < 2 ^ 24 := by
      rw [h2] at hL2; rw [hq] at hL2; exact Nat.lt_of_mul_lt_mul_left hL2
    rw [hq']
    have hs : fSign (packFloat (decide (z < 0)) (BitVec.ofNat 8 (L - 22)) (BitVec.ofNat 23 q)) = decide (z < 0) := fSign_packFloat ..
    have hE : (BitVec.ofNat 8 (L - 22)).toNat = L - 22 := by rw [BitVec.toNat_ofNat]; omega
    refine ⟨sgn _ ?_ hs, ?_, hs⟩
    · rw [magnitude_toNat, fExp_packFloat, hE, if_neg (by omega), ← fMant_toNat, fMant_packFloat, BitVec.toNat_ofNat, hq]
      have : 2 ^ 23 + q % 2 ^ 23 = q := by omega
      rw [this, mul_comm]; congr 2
    · rw [isFinite_iff, fExp_packFloat, hE]; omega

/-- Below the biased exponent 127 magnitudes are below 1, which is 2^149 units (R141). -/
theorem magnitude_lt_one {b : Bits32} (h : (fExp b).toNat ≤ 126) : magnitude b < 2 ^ 149 := by
  rw [magnitude_toNat]
  split
  · have := Nat.mod_lt b.toNat (show 2 ^ 23 > 0 by norm_num)
    calc _ < 2 ^ 23 := this
      _ ≤ 2 ^ 149 := Nat.pow_le_pow_right (by norm_num) (by norm_num)
  · have h1 := Nat.mod_lt b.toNat (show 2 ^ 23 > 0 by norm_num)
    calc _ < 2 ^ 24 * 2 ^ ((fExp b).toNat - 1) := Nat.mul_lt_mul_of_pos_right (by omega) (by positivity)
      _ ≤ 2 ^ 24 * 2 ^ 125 := Nat.mul_le_mul_left _ (Nat.pow_le_pow_right (by norm_num) (by omega))
      _ = 2 ^ 149 := by rw [← pow_add]

/-- A finite magnitude is a 24-bit number times a power of two (R141). -/
theorem magnitude_form {b : Bits32} (h : isFinite b = true) : ∃ c j, magnitude b = c * 2 ^ j ∧ c < 2 ^ 24 ∧ j ≤ 253 := by
  have h1 := Nat.mod_lt b.toNat (show 2 ^ 23 > 0 by norm_num)
  have h2 := (isFinite_iff b).mp h
  rw [magnitude_toNat]
  split
  · exact ⟨_, 0, by rw [pow_zero, mul_one], by omega, by omega⟩
  · exact ⟨_, _, rfl, by omega, by omega⟩

end Sys2Proof.Laws
end

