-- ==== Sys2Proof/Laws/PerInstr.lean ====
section
/-! SUPPORT. Per-instruction laws about the command as syntax. The family CommandWord: a command is well-formed and its word has
RSV = 0 and its opcode in OPC (spec/30_encoding.md R70, R71). -/

namespace Sys2Proof.Laws.CommandWord

/-- A command's word: RSV (bits 63:8) is 0 and OPC (bits 7:0) is the opcode. -/
def Statement (i : Instr) : Prop :=
  i.wf = true ∧ (encode i).extractLsb' 8 56 = 0#56 ∧ (encode i).extractLsb' 0 8 = opcode i

theorem rev16 : Statement .rev16 := ⟨rfl, by decide, by decide⟩

theorem rev32 : Statement .rev32 := ⟨rfl, by decide, by decide⟩

theorem rev64 : Statement .rev64 := ⟨rfl, by decide, by decide⟩

theorem isprime64 : Statement .isprime64 := ⟨rfl, by decide, by decide⟩

theorem fdecomp32 : Statement .fdecomp32 := ⟨rfl, by decide, by decide⟩

theorem fparts32 : Statement .fparts32 := ⟨rfl, by decide, by decide⟩

theorem dcomp128 : Statement .dcomp128 := ⟨rfl, by decide, by decide⟩

theorem dparts128 : Statement .dparts128 := ⟨rfl, by decide, by decide⟩

end Sys2Proof.Laws.CommandWord
end

