-- ==== Sys2Proof/Laws/Primality.lean ====
section
/-! SUPPORT. Laws of the steps of the primality test. -/

namespace Sys2Proof.Laws

open Sys2Proof.Machine

/-- Step 4 writes d as 2^r times an odd number (R121). -/
theorem splitTwos_spec (f d s : Nat) (h0 : 0 < d) (h : d < 2 ^ f) :
    ∃ r e, splitTwos f d s = (e, s + r) ∧ d = 2 ^ r * e ∧ e % 2 = 1 := by
  induction f generalizing d s with
  | zero => omega
  | succ f ih =>
    rw [pow_succ] at h
    rw [splitTwos]
    split
    · obtain ⟨r, e, h1, h2, h3⟩ := ih (d / 2) (s + 1) (by omega) (by omega)
      refine ⟨r + 1, e, by rw [h1]; congr 1; omega, ?_, h3⟩
      rw [pow_succ, Nat.mul_right_comm, ← h2]; omega
    · exact ⟨0, d, rfl, by simp, by omega⟩

/-- The squaring loop passes when one of the squares is n - 1 (R121). -/
theorem squareLoop_spec (k x n : Nat) : squareLoop k x n = true ↔ ∃ j, j < k ∧ x ^ 2 ^ (j + 1) % n = n - 1 := by
  induction k generalizing x with
  | zero => simp [squareLoop]
  | succ k ih =>
    have hx : ∀ j, (x * x % n) ^ 2 ^ (j + 1) % n = x ^ 2 ^ (j + 2) % n := by
      intro j
      rw [← Nat.pow_mod, ← pow_two, ← pow_mul]; congr 2; ring
    rw [squareLoop]
    split
    · rename_i h
      simp only [true_iff]
      exact ⟨0, by omega, by simpa [pow_two] using h⟩
    · rename_i h
      rw [ih]
      constructor
      · rintro ⟨j, hj, he⟩
        exact ⟨j + 1, by omega, by rw [← hx]; exact he⟩
      · rintro ⟨j, hj, he⟩
        cases j with
        | zero => exact absurd (by simpa [pow_two] using he) h
        | succ j => exact ⟨j, by omega, by rw [hx]; exact he⟩

/-- A number is a power of two times an odd number in one way. -/
theorem odd_split_unique {r e r' e' : Nat} (h : 2 ^ r * e = 2 ^ r' * e') (he : e % 2 = 1) (he' : e' % 2 = 1) : r = r' ∧ e = e' := by
  induction r generalizing r' with
  | zero =>
    cases r' with
    | zero => simpa using h
    | succ r' => rw [pow_succ] at h; exfalso; have : e = 2 * (2 ^ r' * e') := by rw [pow_zero, one_mul] at h; rw [h]; ring
                 omega
  | succ r ih =>
    cases r' with
    | zero => rw [pow_succ] at h; exfalso; have : e' = 2 * (2 ^ r * e) := by rw [pow_zero, one_mul] at h; rw [← h]; ring
              omega
    | succ r' =>
      have : 2 ^ r * e = 2 ^ r' * e' := by
        have : 2 * (2 ^ r * e) = 2 * (2 ^ r' * e') := by rw [pow_succ, pow_succ] at h; linarith
        omega
      obtain ⟨h1, h2⟩ := ih this
      exact ⟨by omega, h2⟩

end Sys2Proof.Laws
end

