-- ==== Sys2Proof/Machine/AssemblerText.lean ====
section
/-! DEFINITION. Host program text: reading one line (spec/30_encoding.md R81, R82). A line is one `st`, one `ld` or one
pseudo-instruction, with a `;` comment to its end. -/

namespace Sys2Proof.Machine

/-- A word of a line: its characters. -/
abbrev Token := List Char

/-- The word collected so far, if any. -/
def flush (acc : Token) : List Token := if acc = [] then [] else [acc]

/-- The words of a line: separated by blanks, a comma being a word of its own, and everything after `;` left out (R81;
log 22). -/
def tokens : List Char → Token → List Token
  | [], acc => flush acc
  | c :: cs, acc =>
    if c = ';' then flush acc
    else if c = ' ' ∨ c = '\t' then flush acc ++ tokens cs []
    else if c = ',' then flush acc ++ [','] :: tokens cs []
    else tokens cs (acc ++ [c])

/-- The value of a digit of a base up to 16. -/
def digitValue (base : Nat) (c : Char) : Option Nat :=
  let v :=
    if '0' ≤ c ∧ c ≤ '9' then some (c.toNat - 48)
    else if 'a' ≤ c ∧ c ≤ 'f' then some (c.toNat - 87)
    else if 'A' ≤ c ∧ c ≤ 'F' then some (c.toNat - 55)
    else none
  v.filter (· < base)

/-- The number a row of digits stands for, after `acc`. -/
def readDigits (base : Nat) : Token → Nat → Option Nat
  | [], acc => some acc
  | c :: cs, acc =>
    match digitValue base c with
    | some d => readDigits base cs (acc * base + d)
    | none => none

/-- `<imm>`: decimal, or hex after `0x` with `_` between digit groups, and it fits in 64 bits (R7, R81). -/
def parseImm (t : Token) : Option Nat :=
  let v :=
    match t with
    | '0' :: 'x' :: ds =>
      let hs := ds.filter (· ≠ '_')
      if hs = [] then none else readDigits 16 hs 0
    | [] => none
    | ds => readDigits 10 ds 0
  v.filter immFits

/-- `<REG>` (R20, R81). -/
def parseReg (t : Token) : Option Reg :=
  if t = ['O', 'P', 'N', 'D', '_', 'L', 'O'] then some .opndLo
  else if t = ['O', 'P', 'N', 'D', '_', 'H', 'I'] then some .opndHi
  else if t = ['C', 'M', 'D'] then some .cmd
  else if t = ['S', 'T', 'A', 'T', 'U', 'S'] then some .status
  else if t = ['R', 'E', 'S', '0'] then some .res0
  else if t = ['R', 'E', 'S', '1'] then some .res1
  else if t = ['R', 'E', 'S', '2'] then some .res2
  else if t = ['R', 'E', 'S', '3'] then some .res3
  else if t = ['R', 'E', 'S', '4'] then some .res4
  else if t = ['R', 'E', 'S', '5'] then some .res5
  else none

/-- `<MNEMONIC>` (R71, R81). -/
def parseMnemonic (t : Token) : Option Instr :=
  if t = ['R', 'E', 'V', '1', '6'] then some .rev16
  else if t = ['R', 'E', 'V', '3', '2'] then some .rev32
  else if t = ['R', 'E', 'V', '6', '4'] then some .rev64
  else if t = ['I', 'S', 'P', 'R', 'I', 'M', 'E', '6', '4'] then some .isprime64
  else if t = ['F', 'D', 'E', 'C', 'O', 'M', 'P', '3', '2'] then some .fdecomp32
  else if t = ['F', 'P', 'A', 'R', 'T', 'S', '3', '2'] then some .fparts32
  else if t = ['D', 'C', 'O', 'M', 'P', '1', '2', '8'] then some .dcomp128
  else if t = ['D', 'P', 'A', 'R', 'T', 'S', '1', '2', '8'] then some .dparts128
  else none

/-- The value stored by `st r, t`: an immediate, or for CMD a mnemonic standing for its word (R81). -/
def parseStored (r : Reg) (t : Token) : Option Nat :=
  match parseImm t with
  | some v => some v
  | none => if r = .cmd then (parseMnemonic t).map fun i => (encode i).toNat else none

/-- The one-operand pseudo-instructions by name (R82). -/
def parseUnary (name : Token) : Option (Nat → Pseudo) :=
  if name = ['r', 'e', 'v', '1', '6'] then some .rev16
  else if name = ['r', 'e', 'v', '3', '2'] then some .rev32
  else if name = ['r', 'e', 'v', '6', '4'] then some .rev64
  else if name = ['i', 's', 'p', 'r', 'i', 'm', 'e', '6', '4'] then some .isprime64
  else if name = ['f', 'd', 'e', 'c', 'o', 'm', 'p', '3', '2'] then some .fdecomp32
  else if name = ['f', 'p', 'a', 'r', 't', 's', '3', '2'] then some .fparts32
  else none

/-- The two-operand pseudo-instructions by name (R82). -/
def parseBinary (name : Token) : Option (Nat → Nat → Pseudo) :=
  if name = ['d', 'c', 'o', 'm', 'p', '1', '2', '8'] then some .dcomp128
  else if name = ['d', 'p', 'a', 'r', 't', 's', '1', '2', '8'] then some .dparts128
  else none

/-- The host lines that the words of a line stand for; none when the line is no line of the syntax (R81, R82). A blank or comment
line stands for no access. -/
def parseTokens : List Token → Option (List HostLine)
  | [] => some []
  | [name] => if name = ['g', 'e', 't', 'r', 'e', 's'] then some Pseudo.getres.expand else none
  | [name, arg] =>
    if name = ['l', 'd'] then (parseReg arg).map fun r => [.ld r]
    else if name = ['c', 'm', 'd'] then (parseMnemonic arg).map fun i => (Pseudo.cmd i).expand
    else
      match parseUnary name, parseImm arg with
      | some p, some v => some (p v).expand
      | _, _ => none
  | [name, a, comma, b] =>
    if comma ≠ [','] then none
    else if name = ['s', 't'] then
      match parseReg a with
      | some r => (parseStored r b).map fun v => [.st r v]
      | none => none
    else
      match parseBinary name, parseImm a, parseImm b with
      | some p, some lo, some hi => some (p lo hi).expand
      | _, _, _ => none
  | _ => none

/-- One line of host program text (R81, R82). -/
def parseLine (line : List Char) : Option (List HostLine) := parseTokens (tokens line [])

/-- A host program: its lines' accesses in order, or none when a line is ill-formed (R81). -/
def parseProgram : List (List Char) → Option (List HostLine)
  | [] => some []
  | l :: ls =>
    match parseLine l, parseProgram ls with
    | some a, some b => some (a ++ b)
    | _, _ => none

end Sys2Proof.Machine
end

