-- ==== Sys2Proof/Tests/Slice0.lean ====
section
/-! SUPPORT. Tests on one step each, with expected values from spec/95_test_vectors.md and the rules, and a witness for the
hypotheses of each statement. -/

namespace Sys2Proof.Tests

open Sys2Proof.Machine

/-- A state with the given operand registers, all else as after reset. -/
def operands (lo hi : Word) : State := { State.reset with opndLo := lo, opndHi := hi }

/-- STATUS and the results of a next state. -/
def outcome : Result → Option (List Word)
  | .next t => some [t.status, t.res0, t.res1, t.res2, t.res3, t.res4, t.res5]
  | .fault _ => none
  | .refused _ => none

/-- The response after a step. -/
def responseOf : Result → Option Response
  | .next t => some t.response
  | .fault _ => none
  | .refused _ => none

/-! ### Well-formedness -/

theorem test_wf_refuses_wide_immediate : (HostLine.st .opndLo (2 ^ 64)).wf = false := by decide

theorem test_wf_takes_widest_immediate : (HostLine.st .opndLo (2 ^ 64 - 1)).wf = true := by decide

theorem test_wf_refuses_wide_pseudo_operand : (Pseudo.rev16 (2 ^ 64)).wf = false := by decide

theorem test_wf_refuses_either_wide_decimal_half :
    (Pseudo.dcomp128 (2 ^ 64) 0).wf = false ∧ (Pseudo.dparts128 0 (2 ^ 64)).wf = false := by decide

/-! ### Decoding: the eight words of R71, bit by bit -/

theorem test_decode_rev16 :
    decodeWord 0b0000000000000000000000000000000000000000000000000000000000000001#64 = .ok .rev16 := rfl

theorem test_decode_rev32 :
    decodeWord 0b0000000000000000000000000000000000000000000000000000000000000010#64 = .ok .rev32 := rfl

theorem test_decode_rev64 :
    decodeWord 0b0000000000000000000000000000000000000000000000000000000000000011#64 = .ok .rev64 := rfl

theorem test_decode_isprime64 :
    decodeWord 0b0000000000000000000000000000000000000000000000000000000000010000#64 = .ok .isprime64 := rfl

theorem test_decode_fdecomp32 :
    decodeWord 0b0000000000000000000000000000000000000000000000000000000000100000#64 = .ok .fdecomp32 := rfl

theorem test_decode_fparts32 :
    decodeWord 0b0000000000000000000000000000000000000000000000000000000000100001#64 = .ok .fparts32 := rfl

theorem test_decode_dcomp128 :
    decodeWord 0b0000000000000000000000000000000000000000000000000000000000110000#64 = .ok .dcomp128 := rfl

theorem test_decode_dparts128 :
    decodeWord 0b0000000000000000000000000000000000000000000000000000000000110001#64 = .ok .dparts128 := rfl

/-- 95_test_vectors 2.7. -/
theorem test_decode_rejects_by_name :
    decodeWord 0x0 = .error .unassignedOpcode ∧ decodeWord 0x4 = .error .unassignedOpcode ∧
    decodeWord 0x11 = .error .unassignedOpcode ∧ decodeWord 0x22 = .error .unassignedOpcode ∧
    decodeWord 0x32 = .error .unassignedOpcode ∧ decodeWord 0xFF = .error .unassignedOpcode ∧
    decodeWord 0x101 = .error .reservedBits ∧ decodeWord 0x8000000000000010 = .error .reservedBits :=
  ⟨rfl, rfl, rfl, rfl, rfl, rfl, rfl, rfl⟩

theorem test_decodeBytes_little_endian :
    decodeBytes [0x31, 0, 0, 0, 0, 0, 0, 0] = .ok .dparts128 ∧ decodeBytes [0, 0, 0, 0, 0, 0, 0, 0x31] = .error .reservedBits ∧
    decodeBytes [0x31] = .error .wrongLength := ⟨rfl, rfl, rfl⟩

theorem test_decodeTableWord :
    decodeTableWord 64 0x1 = some .rev16 ∧ decodeTableWord 64 0x31 = some .dparts128 ∧ decodeTableWord 64 0x32 = none ∧
    decodeTableWord 72 0x1 = none := by decide

theorem test_fetch_runs_after_reset :
    outcome (step (State.reset.withFetchWord 64 0x20)) = some [0x100, 1, 0xFFFFFFFFFFFFFF81, 0, 0, 0, 0] := by decide

/-! ### Commands -/

theorem test_rev16_ignores_upper_bits :
    outcome (exec .rev16 (operands 0xFFFFFFFFFFFF1234 7)) = some [0x100, 0x2C48, 0, 0, 0, 0, 0] := by decide

theorem test_rev32 : outcome (exec .rev32 (operands 0x12345678 0)) = some [0x100, 0x1E6A2C48, 0, 0, 0, 0, 0] := by
  decide +kernel

theorem test_rev64 :
    outcome (exec .rev64 (operands 0x0123456789ABCDEF 0)) = some [0x100, 0xF7B3D591E6A2C480, 0, 0, 0, 0, 0] := by
  decide +kernel

theorem test_isprime64_largest_prime :
    outcome (exec .isprime64 (operands 0xFFFFFFFFFFFFFFC5 0)) = some [0x100, 1, 0, 0, 0, 0, 0] := by decide +kernel

theorem test_isprime64_needs_base_11 :
    outcome (exec .isprime64 (operands 3215031751 0)) = some [0x100, 0, 0, 0, 0, 0, 0] := by decide +kernel

theorem test_fdecomp32_negative_normal :
    outcome (exec .fdecomp32 (operands 0xBFC00000 0)) = some [0x100, 0xFFFFFFFFFFFFFFFF, 0, 0x400000, 1, 0x7F, 0x400000] := by
  decide

theorem test_fdecomp32_infinity :
    outcome (exec .fdecomp32 (operands 0x7F800000 0)) = some [0x100, 1, 0x80, 0, 0, 0xFF, 0] := by decide

theorem test_fparts32_pi :
    outcome (exec .fparts32 (operands 0x40490FDB 0)) = some [0x100, 0x40400000, 0x3E10FDB0, 0, 0, 0, 0] := by decide +kernel

theorem test_fparts32_negative_half :
    outcome (exec .fparts32 (operands 0xBF000000 0)) = some [0x100, 0x80000000, 0xBF000000, 0, 0, 0, 0] := by decide +kernel

theorem test_dcomp128_negative :
    outcome (exec .dcomp128 (operands 0x96 0x8002000000000000)) = some [0x100, 0x96, 0, 2, 1, 0, 0] := by decide

theorem test_dcomp128_scale_29 :
    outcome (exec .dcomp128 (operands 0x96 0x001D000000000000)) = some [0x102, 0, 0, 0, 0, 0, 0] := by decide

theorem test_dparts128_negative :
    outcome (exec .dparts128 (operands 0x96 0x8002000000000000)) =
      some [0x100, 1, 0, 0xFA, 0x8002000000000000, 0x32, 0] := by decide

theorem test_dparts128_domain_edge :
    outcome (exec .dparts128 (operands 0 0x8000000080000000)) = some [0x101, 0, 0, 0, 0, 0, 0] ∧
    outcome (exec .dparts128 (operands 0 0x8001000080000000)) =
      some [0x100, 0xCCCCCCCCCCCCCCCC, 0x0CCCCCCC, 0xFFFFFFFFFFFFFFF8, 0x80010000FFFFFFFF, 8, 0] := by decide

/-! ### Host accesses: 95_test_vectors 2.8, from the state after `rev64 5` -/

/-- The state S of 95_test_vectors 2.8. -/
def afterRev64 : State :=
  { State.reset with opndLo := 5, cmd := 3, status := 0x100, res0 := 0xA000000000000000 }

theorem test_reads :
    step (afterRev64.issue (.read 0x18 8)) = .next { afterRev64 with response := .data 0x100 } ∧
    step (afterRev64.issue (.read 0x20 8)) = .next { afterRev64 with response := .data 0xA000000000000000 } := ⟨rfl, rfl⟩

theorem test_write_opnd_hi :
    step (afterRev64.issue (.write 0x08 [0x34, 0x12, 0, 0, 0, 0, 0, 0])) =
      .next { afterRev64 with opndHi := 0x1234, response := .accepted } := rfl

theorem test_bus_errors :
    step (afterRev64.issue (writeOf .status 0)) = .fault (.busError .readOnly) ∧
    step (afterRev64.issue (writeOf .res5 0)) = .fault (.busError .readOnly) ∧
    step (afterRev64.issue (.read 0x50 8)) = .fault (.busError .reservedSlot) ∧
    step (afterRev64.issue (.write 0x78 (lanesOf 8 0))) = .fault (.busError .reservedSlot) ∧
    step (afterRev64.issue (.read 0x04 8)) = .fault (.busError .misaligned) ∧
    step (afterRev64.issue (.read 0x00 4)) = .fault (.busError .width) ∧
    step (afterRev64.issue (.write 0x10 [3])) = .fault (.busError .width) := ⟨rfl, rfl, rfl, rfl, rfl, rfl, rfl⟩

theorem test_outside_window :
    step (afterRev64.issue (.write 0x80 [3])) = .next { afterRev64 with response := .notReached } ∧
    step (afterRev64.issue (.read (-8) 8)) = .next { afterRev64 with response := .notReached } := ⟨rfl, rfl⟩

theorem test_illegal_command_keeps_the_word :
    step (afterRev64.issue (writeOf .cmd 0x110)) =
      .next { State.reset with opndLo := 5, cmd := 0x110, status := 0x103, response := .accepted } := rfl

theorem test_reset_during_command :
    step (afterRev64.issue (.resetDuringCommand 0x10)) = .next { State.reset with response := .aborted } := rfl

/-! ### Host program text -/

theorem test_parse_store :
    parseLine ['s', 't', ' ', 'C', 'M', 'D', ',', ' ', 'R', 'E', 'V', '1', '6', ' ', ';', ' ', 'x'] =
      some [.st .cmd 1] := by decide

theorem test_parse_pseudo :
    parseLine ['r', 'e', 'v', '6', '4', ' ', '0', 'x', '1', '_', 'F'] = some [.st .opndLo 31, .st .cmd 3] := by decide

/-! ### Witnesses for the statements' hypotheses -/

theorem witness_ResetAssertionClearsTheBlock :
    ({ State.reset with pending := [readOf .cmd] } : State).pending = readOf .cmd :: [] := rfl

theorem witness_DecodeAndEncodeAgree :
    Instr.dparts128.wf = true ∧ decodeBytes [0x31, 0, 0, 0, 0, 0, 0, 0] = .ok .dparts128 := ⟨rfl, rfl⟩

theorem witness_EveryOtherWordIsIllegal :
    (0x0 : Word) ∉ ([0x01, 0x02, 0x03, 0x10, 0x20, 0x21, 0x30, 0x31] : List Word) ∧
    (0x04 : Word) ∉ ([0x01, 0x02, 0x03, 0x10, 0x20, 0x21, 0x30, 0x31] : List Word) ∧
    (0x101 : Word) ∉ ([0x01, 0x02, 0x03, 0x10, 0x20, 0x21, 0x30, 0x31] : List Word) ∧
    (0xFFFFFFFFFFFFFFFF : Word) ∉ ([0x01, 0x02, 0x03, 0x10, 0x20, 0x21, 0x30, 0x31] : List Word) := by decide

theorem witness_StepRunsTheDecodedCommand :
    ({ State.reset with pending := [.write 0x10 [3, 0, 0, 0, 0, 0, 0, 0]] } : State).pending =
        .write 0x10 [3, 0, 0, 0, 0, 0, 0, 0] :: [] ∧
      decodeWord (wordOfLanes [3, 0, 0, 0, 0, 0, 0, 0]) = .ok .rev64 := ⟨rfl, rfl⟩

/-- Slots 10 and 15 for reads, 3, 9, 10 and 15 for writes, answer bus errors; slot 9 reads. -/
theorem witness_WindowAccessesDoAsListed :
    step (State.reset.issue (.read 72 8)) = .next { State.reset with response := .data 0 } ∧
    step (State.reset.issue (.read 80 8)) = .fault (.busError .reservedSlot) ∧
    step (State.reset.issue (.read 120 8)) = .fault (.busError .reservedSlot) ∧
    step (State.reset.issue (.write 24 (lanesOf 8 1))) = .fault (.busError .readOnly) ∧
    step (State.reset.issue (.write 72 (lanesOf 8 1))) = .fault (.busError .readOnly) ∧
    step (State.reset.issue (.write 80 (lanesOf 8 1))) = .fault (.busError .reservedSlot) ∧
    step (State.reset.issue (.write 120 (lanesOf 8 1))) = .fault (.busError .reservedSlot) := ⟨rfl, rfl, rfl, rfl, rfl, rfl, rfl⟩

/-- Illegal events at the first and last offsets of the window, and legal ones at the edges of what is legal. -/
theorem witness_BusErrorsAreExactlyTheListedCauses :
    ¬ LegalEvent (.read 0 4) ∧ ¬ LegalEvent (.read 127 8) ∧ ¬ LegalEvent (.read 80 8) ∧
    ¬ LegalEvent (.write 24 (lanesOf 8 0)) ∧ ¬ LegalEvent (.write 16 []) ∧
    LegalEvent (.read 72 8) ∧ LegalEvent (.write 16 (lanesOf 8 0)) ∧ LegalEvent (.read 128 4) ∧ LegalEvent (.read (-1) 4) ∧
    LegalEvent .reset := by
  simp [LegalEvent, lanesOf]

theorem witness_LegalHostsRunSafely :
    ∀ e ∈ [writeOf .opndLo 1, writeOf .cmd 0, readOf .res5, .resetDuringCommand 3, .read 200 1], LegalEvent e := by
  simp [LegalEvent, writeOf, readOf, regOffset, regIndex, lanesOf]

/-- The first address above the window and, where P_BASE is not 0, the last below it. P_BASE is open and may be 0, so the lower
edge is shown also by a displacement, -1, that lies outside. -/
theorem witness_WindowDecodesFromItsBase :
    Config.pBase + 128 ≤ Config.pBase + 128 ∧ (0 < Config.pBase → Config.pBase - 1 < Config.pBase) ∧
    inWindow (-1) = false ∧ inWindow 0 = true ∧ inWindow 127 = true ∧ inWindow 128 = false :=
  ⟨Nat.le_refl _, fun h => Nat.sub_lt h Nat.one_pos, rfl, rfl, rfl, rfl⟩

theorem witness_ByteLanesAreLittleEndian : ([1, 2, 3, 4, 5, 6, 7, 8] : List Byte).length = 8 ∧ 0 < 8 ∧ 7 < 8 := by decide

theorem witness_TheBlockIdlesWithoutAHost : State.reset.pending = [] := rfl

/-- Each register changes by a write to it, and by a reset. -/
theorem witness_RegistersChangeOnlyByTheirWriters :
    step (State.reset.issue (writeOf .opndLo 1)) = .next { State.reset with opndLo := 1, response := .accepted } ∧
    step (State.reset.issue (writeOf .opndHi 1)) = .next { State.reset with opndHi := 1, response := .accepted } ∧
    step (State.reset.issue (writeOf .cmd 0xFF)) =
      .next { State.reset with cmd := 0xFF, status := 0x103, response := .accepted } ∧
    step (afterRev64.issue .reset) = .next State.reset := ⟨rfl, rfl, rfl, rfl⟩

theorem witness_DoneStaysSetUntilReset :
    step (State.reset.issue (writeOf .cmd 0)) = .next { State.reset with status := 0x103, response := .accepted } ∧
    step (afterRev64.issue .reset) = .next State.reset ∧ statusDone afterRev64.status = true ∧
    statusDone State.reset.status = false := ⟨rfl, rfl, rfl, rfl⟩

theorem witness_ReservedStatusBitsReadZero : (4 ≤ 4 ∧ 4 ≤ 7) ∧ (4 ≤ 7 ∧ 7 ≤ 7) ∧ 9 ≤ 9 := by decide

theorem witness_EveryStepKeepsTheRegistersConsistent :
    Consistent { State.reset with pending := [writeOf .cmd 0] } ∧
    step { State.reset with pending := [writeOf .cmd 0] } =
      .next { State.reset with status := 0x103, response := .accepted } ∧
    Consistent afterRev64 :=
  ⟨.inl ⟨rfl, rfl, rfl, rfl, rfl, rfl, rfl, rfl⟩, rfl, .inr (.inl ⟨rfl, rfl, rfl, rfl, rfl, rfl⟩)⟩

/-- A consistent state with an error, and one in which no command has run. -/
theorem witness_ConsistentStatusReadsBack :
    Consistent { State.reset with status := 0x103 } ∧ statusErr 0x103 ≠ 0 ∧
    Consistent State.reset ∧ statusDone State.reset.status = false :=
  ⟨.inr ⟨rfl, rfl, rfl, rfl, rfl, rfl, rfl⟩, by decide, .inl ⟨rfl, rfl, rfl, rfl, rfl, rfl, rfl, rfl⟩, rfl⟩

theorem witness_OutcomeDependsOnlyOnWordAndOperands :
    afterRev64.opndLo = (operands 5 0).opndLo ∧ afterRev64.opndHi = (operands 5 0).opndHi ∧ afterRev64 ≠ operands 5 0 := by
  decide

/-- Operands that differ in the first bit each command ignores. -/
theorem witness_UnlistedOperandBitsAreIgnored :
    (operands 0x10005 1).opndLo &&& (operandMasks .rev16).1 = (operands 0x5 0).opndLo &&& (operandMasks .rev16).1 ∧
    (operands 0x10005 1).opndHi &&& (operandMasks .rev16).2 = (operands 0x5 0).opndHi &&& (operandMasks .rev16).2 ∧
    (operands 0x100000005 1).opndLo &&& (operandMasks .fparts32).1 = (operands 0x5 0).opndLo &&& (operandMasks .fparts32).1 ∧
    (operands 5 6).opndHi &&& (operandMasks .dparts128).2 = (operands 5 6).opndHi &&& (operandMasks .dparts128).2 := by decide

theorem witness_RepeatedAccessesAreIdempotent : Reg.opndLo = .opndLo ∨ Reg.opndLo = .opndHi := .inl rfl

/-- Operands at the edges: scale 28 is valid and 29 is not, each reserved bit alone makes an operand invalid, and sig = 2^95 is
unrepresentable at scale 0 and representable at scale 1. -/
theorem witness_OneOutcomeByPriority :
    OperandValid (operands 0 0x801C000000000000) ∧ ¬ OperandValid (operands 0 0x801D000000000000) ∧
    ¬ OperandValid (operands 0 0x0000000100000000) ∧ ¬ OperandValid (operands 0 0x4000000000000000) ∧
    OperandValid (operands 0 0x8000000080000000) ∧ FractionUnrepresentable (operands 0 0x8000000080000000) ∧
    OperandValid (operands 0 0x8001000080000000) ∧ ¬ FractionUnrepresentable (operands 0 0x8001000080000000) := by
  unfold OperandValid FractionUnrepresentable
  decide

theorem witness_CommandsProduceOnlyTheirListedOutcomes :
    (Instr.fparts32 ≠ .dcomp128 ∧ Instr.fparts32 ≠ .dparts128) ∧ decodeWord 0xFF = .error .unassignedOpcode := by
  exact ⟨by decide, rfl⟩

/-- One host's accesses: both operands, a command and reads around them. -/
def oneHostsAccesses : List HostEvent :=
  writeOf .opndLo 5 :: ([readOf .res0] ++ writeOf .opndHi 6 :: ([] ++ writeOf .cmd 0x31 :: ([readOf .status] ++ [])))

theorem witness_ExclusiveUseGetsOwnResults :
    decodeWord 0x31 = .ok .dparts128 ∧ (∀ e ∈ [readOf .res0] ++ [] ++ [readOf .status], ∃ r, e = readOf r) ∧
    ({ State.reset with pending := oneHostsAccesses } : State).pending = oneHostsAccesses := by
  refine ⟨rfl, ?_, rfl⟩
  simp only [List.append_nil, List.mem_append, List.mem_singleton]
  rintro e (rfl | rfl)
  · exact ⟨_, rfl⟩
  · exact ⟨_, rfl⟩

theorem witness_PseudoInstructionsRunTheirCommands : 2 ^ 64 - 1 < 2 ^ 64 ∧ (0 : Nat) < 2 ^ 64 := by decide

theorem witness_reversal_positions : (0 < 16 ∧ 15 < 16 ∧ 16 ≤ 16) ∧ (31 < 32 ∧ 32 ≤ 32) ∧ 63 < 64 := by decide

theorem witness_ReversalIsAnInvolution :
    ((.rev64, 64) : Instr × Nat) ∈ ([(.rev16, 16), (.rev32, 32), (.rev64, 64)] : List (Instr × Nat)) := by decide

theorem witness_PrimeMaskMarksThePrimes : primeMask64.getLsbD 0 = false ∧ primeMask64.getLsbD 61 = true ∧ 63 < 64 := by decide

theorem witness_ModularExponentiationIsExact : 2 ^ 64 - 1 < 2 ^ 64 := by decide

/-- 61 is accepted by the table, 64 is not accepted; both are operands. -/
theorem witness_Isprime64GivesTheTestsVerdict :
    AcceptedByTest (operands 61 0).opndLo.toNat ∧ ¬ AcceptedByTest (operands 64 0).opndLo.toNat := by
  refine ⟨.inl ⟨by decide, by show Nat.Prime 61; norm_num⟩, ?_⟩
  rintro (h | h)
  · exact absurd h.1 (by decide)
  · exact absurd h.2.1 (by decide)

theorem witness_PrimesAreNeverRejected : (operands 67 0).opndLo.toNat.Prime := by
  show Nat.Prime 67; norm_num

theorem witness_TwoCompositesAreAccepted :
    (operands 341550071728321 0).opndLo = 341550071728321 ∧ (operands 3825123056546413051 0).opndLo = 3825123056546413051 :=
  ⟨rfl, rfl⟩

theorem witness_Fdecomp32ExtractsTheFields :
    floatOperand (operands 0x7FFFFFFF 0) < 2 ^ 31 ∧ 2 ^ 31 ≤ floatOperand (operands 0x80000000 0) := by decide

theorem witness_SignificandUnderBothForms :
    (0x007FFFFF : Bits32).toNat / 2 ^ 23 % 2 ^ 8 = 0 ∧ (0x00800000 : Bits32).toNat / 2 ^ 23 % 2 ^ 8 ≠ 0 := by decide

theorem witness_Fparts32SplitsFiniteValues : isFinite (operand32 (operands 0x7F7FFFFF 0)) = true := by decide

theorem witness_Fparts32PropagatesNaN :
    isFinite (operand32 (operands 0x7F800000 0)) = false ∧ isInf (operand32 (operands 0x7F800000 0)) = true ∧
    isNaN (operand32 (operands 0x7F800001 0)) = true := by decide

/-- Patterns at the edges of the exponent classes: 126 and 127, 149 and 150, 254, infinity and NaN. -/
theorem witness_TruncationByExponentClass :
    isInf 0xFF800000 = true ∧ isNaN 0x7F800001 = true ∧ (fExp 0x3F7FFFFF).toNat = 126 ∧ (fExp 0x3F800000).toNat = 127 ∧
    (fExp 0x4AFFFFFF).toNat = 149 ∧ (fExp 0x4B000000).toNat = 150 ∧ (fExp 0x7F7FFFFF).toNat = 254 ∧
    isFinite 0x7F7FFFFF = true := by decide

theorem witness_Dcomp128ExtractsTheComponents :
    OperandValid (operands 0x96 0x001C000000000000) ∧ ¬ OperandValid (operands 0x96 0x001D000000000000) := by
  unfold OperandValid
  decide

/-- DPARTS128 splits -2^95 / 10 and turns -2^95 away; the other sign and a zero significand are operands too. -/
theorem witness_Dparts128SplitsTheDecimal :
    (OperandValid (operands 0 0x8001000080000000) ∧ ¬ FractionUnrepresentable (operands 0 0x8001000080000000) ∧
      operandSign (operands 0 0x8001000080000000) = 1 ∧ operandSig (operands 0 0x8001000080000000) ≠ 0) ∧
    (OperandValid (operands 0 0x801C000000000000) ∧ ¬ FractionUnrepresentable (operands 0 0x801C000000000000) ∧
      operandSig (operands 0 0x801C000000000000) = 0) ∧
    (OperandValid (operands 0x96 0x0002000000000000) ∧ ¬ FractionUnrepresentable (operands 0x96 0x0002000000000000) ∧
      operandSign (operands 0x96 0x0002000000000000) = 0) ∧
    (OperandValid (operands 0 0x8000000080000000) ∧ FractionUnrepresentable (operands 0 0x8000000080000000)) := by
  unfold OperandValid FractionUnrepresentable
  decide

theorem witness_MalformedEncodingExactlyForInvalidDecimals :
    operandScale (operands 0 0x001D000000000000) > 28 ∧
    (operands 0 0x0000000100000000).opndHi.toNat / 2 ^ 32 % 2 ^ 16 ≠ 0 ∧
    (operands 0 0x4000000000000000).opndHi.toNat / 2 ^ 56 % 2 ^ 7 ≠ 0 := by decide

theorem witness_DomainErrorHasOneCause :
    outcome (exec .dparts128 (operands 0 0x8000000080000000)) = some [0x101, 0, 0, 0, 0, 0, 0] := by decide

/-- 1.50 and -1.50 complete DPARTS128 with ERR = 0. -/
theorem witness_DecimalPartsReconstructTheValue :
    (∃ t, exec .dparts128 (operands 0x96 0x0002000000000000) = .next t ∧ statusErr t.status = 0) ∧
    (∃ t, exec .dparts128 (operands 0x96 0x8002000000000000) = .next t ∧ statusErr t.status = 0) ∧
    operandSign (operands 0x96 0x0002000000000000) = 0 ∧ operandSign (operands 0x96 0x8002000000000000) = 1 ∧
    operandSig (operands 0x96 0x8002000000000000) ≠ 0 := by
  exact ⟨⟨_, rfl, by decide⟩, ⟨_, rfl, by decide⟩, by decide, by decide, by decide⟩

end Sys2Proof.Tests
end

section
/-! Noninterference of the commands (R2, R27, R32): a completion depends only on the command word and on the operand the
command reads. -/

namespace Sys2Proof.Proofs

open Sys2Proof.Machine Sys2Proof.Laws

/-- Both answers are completions, and the host reads the same STATUS and results after either. -/
def SameCompletion (a a' : Result) : Prop := ∃ t t', a = .next t ∧ a' = .next t' ∧ SameOutcome t t'

/-- A success completion writes STATUS and all six results, so nothing of the state before it is left in them (R202). -/
theorem sameCompletion_complete (r0 r1 r2 r3 r4 r5 : Word) (s s' : State) :
    SameCompletion (.next (complete r0 r1 r2 r3 r4 r5 s)) (.next (complete r0 r1 r2 r3 r4 r5 s')) :=
  ⟨_, _, rfl, rfl, rfl, rfl, rfl, rfl, rfl, rfl, rfl⟩

/-- An error completion writes them all too (R201). -/
theorem sameCompletion_raiseError (e : OpError) (s s' : State) :
    SameCompletion (.next (raiseError e s)) (.next (raiseError e s')) :=
  ⟨_, _, rfl, rfl, rfl, rfl, rfl, rfl, rfl, rfl, rfl⟩

/-- The two states hold the same operand, as the command reads it (R71). -/
def SameOperand (s s' : State) : Instr → Prop
  | .rev16 => operand16 s = operand16 s'
  | .rev32 | .fdecomp32 | .fparts32 => operand32 s = operand32 s'
  | .rev64 | .isprime64 => operand64 s = operand64 s'
  | .dcomp128 | .dparts128 => operandDecimal s = operandDecimal s'

/-- States with the same operand registers hold the same operand for every command. -/
theorem sameOperand_of_opnd {s s' : State} (hlo : s.opndLo = s'.opndLo) (hhi : s.opndHi = s'.opndHi) (i : Instr) :
    SameOperand s s' i := by
  cases i <;> simp only [SameOperand, operand16, operand32, operand64, operandDecimal, hlo, hhi]

/-- A command completes alike from any two states that hold the same operand for it. -/
theorem exec_sameCompletion {i : Instr} {s s' : State} (h : SameOperand s s' i) :
    SameCompletion (exec i s) (exec i s') := by
  cases i <;> simp only [SameOperand] at h
  case rev16 => simpa only [exec, execRev16, h] using sameCompletion_complete ..
  case rev32 => simpa only [exec, execRev32, h] using sameCompletion_complete ..
  case rev64 => simpa only [exec, execRev64, h] using sameCompletion_complete ..
  case isprime64 => simpa only [exec, execIsprime64, h] using sameCompletion_complete ..
  case fdecomp32 => simpa only [exec, execFdecomp32, decomposeFloat32, h] using sameCompletion_complete ..
  case fparts32 => simpa only [exec, execFparts32, h] using sameCompletion_complete ..
  case dcomp128 =>
    simp only [exec, execDcomp128, h]
    cases checkDecimal (operandDecimal s') with
    | error e => exact sameCompletion_raiseError e s s'
    | ok _ => exact sameCompletion_complete ..
  case dparts128 =>
    simp only [exec, execDparts128, h]
    cases checkDecimal (operandDecimal s') with
    | error e => exact sameCompletion_raiseError e s s'
    | ok _ =>
      cases fracDecimal (operandDecimal s') with
      | error e => exact sameCompletion_raiseError e s s'
      | ok _ => exact sameCompletion_complete ..

/-- A command word completes alike from any two states that hold the same operand for the command it decodes to, if any. -/
theorem execute_sameCompletion {w : Word} {s s' : State} (h : ∀ i, decodeWord w = .ok i → SameOperand s s' i) :
    SameCompletion (execute w s) (execute w s') := by
  cases hw : decodeWord w with
  | ok i => simpa only [execute_ok hw] using exec_sameCompletion (h i hw)
  | error r => simpa only [execute_error hw] using sameCompletion_raiseError .illegalCommand s s'

/-- Settles O23: the CMD write executes the word on the unchanged operand registers, and both executions complete alike. -/
theorem outcomeDependsOnlyOnWordAndOperands : Obligations.OutcomeDependsOnlyOnWordAndOperands := by
  intro s s' w hlo hhi
  rw [step_issue, step_issue, acceptEvent_writeCmd, acceptEvent_writeCmd]
  exact execute_sameCompletion fun i _ => sameOperand_of_opnd hlo hhi i

end Sys2Proof.Proofs
end

section
/-! What the parts of a binary32 operand look like (R145 to R148): truncation keeps the sign and leaves an exact remainder
below 1, and a drawn NaN is a NaN. -/

namespace Sys2Proof.Proofs

open Sys2Proof.Machine Sys2Proof.Laws

/-- Clearing the k low bits leaves the bits from m on alone, for k ≤ m. -/
theorem clear_low_div (n : Nat) {k m : Nat} (h : k ≤ m) : n / 2 ^ k * 2 ^ k / 2 ^ m = n / 2 ^ m := by
  obtain ⟨d, rfl⟩ := Nat.exists_eq_add_of_le h
  rw [pow_add, ← Nat.div_div_eq_div_mul, Nat.mul_div_cancel _ (by positivity), Nat.div_div_eq_div_mul]

/-- In the middle exponent class, clearing the k = 150 - e low bits keeps sign and exponent and takes those bits, weighed
with the exponent, from the magnitude (R145). -/
theorem clear_fraction {b c : Bits32} {k : Nat} (hk : k ≤ 23) (he : (fExp b).toNat ≠ 0)
    (hc : c.toNat = b.toNat / 2 ^ k * 2 ^ k) :
    fSign c = fSign b ∧ fExp c = fExp b ∧
      magnitude b = magnitude c + b.toNat % 2 ^ k * 2 ^ ((fExp b).toNat - 1) := by
  have hexp : fExp c = fExp b := by
    apply BitVec.eq_of_toNat_eq
    rw [fExp_toNat, fExp_toNat, hc, clear_low_div _ hk]
  have hmant : b.toNat % 2 ^ 23 = c.toNat % 2 ^ 23 + b.toNat % 2 ^ k := by
    have hhigh : c.toNat / 2 ^ 23 = b.toNat / 2 ^ 23 := by rw [hc, clear_low_div _ hk]
    have hlow := Nat.div_add_mod' b.toNat (2 ^ k)
    omega
  refine ⟨?_, hexp, ?_⟩
  · rw [fSign_toNat, fSign_toNat, hc, clear_low_div _ (by omega)]
  · rw [magnitude_toNat, magnitude_toNat, hexp, if_neg he, if_neg he, hmant]
    ring

/-- Truncating a finite pattern keeps its sign and its being finite, and takes from its magnitude an exactly representable
remainder below 1 (R145, R146). -/
theorem trunc_finite {b : Bits32} (hf : isFinite b = true) :
    fSign (trunc b) = fSign b ∧ isFinite (trunc b) = true ∧
      ∃ c j, magnitude b = magnitude (trunc b) + c * 2 ^ j ∧ c * 2 ^ j < 2 ^ 149 ∧ c < 2 ^ 24 ∧ j ≤ 253 := by
  obtain ⟨hinf, hnan⟩ := not_inf_nan_of_isFinite hf
  have hexp := (isFinite_iff b).mp hf
  simp only [trunc, hinf, hnan, Bool.false_eq_true, if_false]
  split
  next hsmall =>
    have hzero : magnitude (packFloat (fSign b) 0#8 0#23) = 0 := by
      simp [magnitude, fExp_packFloat, fMant_packFloat]
    obtain ⟨c, j, hm, hc, hj⟩ := magnitude_form hf
    refine ⟨fSign_packFloat .., ?_, c, j, by omega, hm ▸ magnitude_lt_one hsmall, hc, hj⟩
    rw [isFinite, fExp_packFloat]; rfl
  next hone =>
    split
    next => exact ⟨rfl, hf, 0, 0, by omega, by norm_num, by norm_num, by norm_num⟩
    next hbig =>
      obtain ⟨hs, he, hm⟩ :=
        clear_fraction (k := 150 - (fExp b).toNat) (by omega) (by omega) (clear_low_toNat b _)
      have hbits : b.toNat % 2 ^ (150 - (fExp b).toNat) < 2 ^ (150 - (fExp b).toNat) := Nat.mod_lt _ (by positivity)
      refine ⟨hs, by rw [isFinite, he]; exact hf, _, _, hm, ?_, ?_, by omega⟩
      · calc b.toNat % 2 ^ (150 - (fExp b).toNat) * 2 ^ ((fExp b).toNat - 1)
            < 2 ^ (150 - (fExp b).toNat) * 2 ^ ((fExp b).toNat - 1) := Nat.mul_lt_mul_of_pos_right hbits (by positivity)
          _ = 2 ^ 149 := by rw [← pow_add]; congr 1; omega
      · exact hbits.trans_le (Nat.pow_le_pow_right (by norm_num) (by omega))

/-- The values of two patterns of one sign are as far apart as their magnitudes. -/
theorem natAbs_valueOf_sub {b t : Bits32} {r : Nat} (hs : fSign t = fSign b) (hm : magnitude b = magnitude t + r) :
    (valueOf b - valueOf t).natAbs = r := by
  rw [valueOf, valueOf, hs]
  split <;> omega

/-- The fractional part of a finite pattern is finite and below 1 in magnitude (R146). -/
theorem fracPart_finite {b : Bits32} (hf : isFinite b = true) :
    isFinite (fracPart b) = true ∧ magnitude (fracPart b) < 2 ^ 149 := by
  obtain ⟨hs, -, c, j, hm, hlt, hc, hj⟩ := trunc_finite hf
  rw [fracPart, if_pos hf, fsub]
  split
  next =>
    have hzero : magnitude 0#32 = 0 := by decide
    exact ⟨by decide, by rw [hzero]; positivity⟩
  next =>
    have hsub := natAbs_valueOf_sub hs hm
    obtain ⟨hval, hfin, -⟩ := bits32_spec _ c j hsub hc hj
    exact ⟨hfin, by rw [← valueOf_natAbs, hval, hsub]; exact hlt⟩

/-- Every draw is a NaN (R148). -/
theorem isNaN_nanOut (b : Bits32) (k : Config.NanPart) : isNaN (nanOut b k) = true := by
  have hlt := (Config.nanPayload b k).isLt
  have hmant : BitVec.ofNat 23 ((Config.nanPayload b k).val + 1) ≠ 0#23 := by
    rw [ne_eq, ← BitVec.toNat_inj, BitVec.toNat_ofNat, BitVec.toNat_ofNat]
    omega
  rw [isNaN, nanOut, fExp_packFloat, fMant_packFloat]
  simpa using hmant

/-- A NaN is not finite (R141). -/
theorem not_isFinite_of_isNaN {b : Bits32} (h : isNaN b = true) : isFinite b = false := by
  by_contra hf
  rw [(not_inf_nan_of_isFinite (Bool.not_eq_false _ ▸ hf)).2] at h
  cases h

/-- The integer part is finite exactly for a finite operand (R145, R147). -/
theorem isFinite_trunc (b : Bits32) : isFinite (trunc b) = isFinite b := by
  cases hf : isFinite b with
  | true => exact (trunc_finite hf).2.1
  | false =>
    rw [trunc]
    split
    next => exact hf
    next hinf =>
      have hnan : isNaN b = true := by
        simp only [isFinite, isInf, isNaN, bne_eq_false_iff_eq] at hf hinf ⊢
        simp_all
      rw [if_pos hnan]
      exact not_isFinite_of_isNaN (isNaN_nanOut _ _)

end Sys2Proof.Proofs
end

section
/-! The shape of each command's results and the one outcome every command word leaves (R77, R200 to R203). -/

namespace Sys2Proof.Proofs

open Sys2Proof.Machine Sys2Proof.Laws

/-! ### Result words -/

/-- A zero-extended result is below the power of its own width (R8). -/
theorem zext64_lt {n : Nat} (h : n ≤ 64) (x : BitVec n) : (zext64 x).toNat < 2 ^ n := by
  rw [toNat_zext h]; exact x.isLt

/-- A zero-extended result reads back at its own width (R8). -/
theorem setWidth_zext64 {n : Nat} (h : n ≤ 64) (x : BitVec n) : (zext64 x).setWidth n = x := by
  simp [zext64, BitVec.setWidth_setWidth_of_le _ h]

/-- A Boolean result is 0 or 1 (R78). -/
theorem boolWord_le_one (b : Bool) : (boolWord b).toNat ≤ 1 := by
  rw [boolWord_toNat]; exact Bool.toNat_le b

/-- The upper word of a 96-bit result has 32 bits (R77). -/
theorem high32_lt (v : Nat) : (high32 v).toNat < 2 ^ 32 := zext64_lt (by norm_num) _

/-! ### Shapes -/

/-- FDECOMP32: sign, exponent and significand agree with the raw fields (R142, R143). -/
theorem resultShape_decomposeFloat32 (b : Bits32) (s : State) :
    ResultShape .fdecomp32 (decomposeFloat32 Config.pSigForm b s) := by
  refine ⟨?sign, zext64_lt (by norm_num) (fExp b), ?exponent, zext64_lt (by norm_num) (fMant b), rfl⟩
  case sign =>
    cases hs : fSign b with
    | false => exact .inl (by simp [decomposeFloat32, signOut, hs, boolWord, tc64])
    | true => exact .inr (by simp [decomposeFloat32, signOut, hs, boolWord, tc64])
  case exponent =>
    show tc64 (((fExp b).toNat : Int) - 127) = (fExp b).setWidth 64 - 127
    rw [tc64, Int.sub_eq_add_neg, BitVec.ofInt_add, BitVec.ofInt_natCast, BitVec.ofNat_toNat, BitVec.sub_eq_add_neg]
    congr 1

/-- FPARTS32: both parts are binary32 patterns, the fractional one below 1 or, beside a part that is not finite, a NaN
(R145 to R147). -/
theorem resultShape_fparts32 (b : Bits32) (s : State) :
    ResultShape .fparts32 (complete (zext64 (trunc b)) (zext64 (fracPart b)) 0 0 0 0 s) := by
  refine ⟨zext64_lt (by norm_num) _, zext64_lt (by norm_num) _, ?finite, ?special, rfl, rfl, rfl, rfl⟩
  all_goals
    simp only [complete_res0, complete_res1, setWidth_zext64 (show 32 ≤ 64 by norm_num), isFinite_trunc]
    intro hf
  case finite => exact fracPart_finite hf
  case special =>
    rw [fracPart, if_neg (by rw [hf]; exact Bool.false_ne_true)]
    exact isNaN_nanOut _ _

/-- DCOMP128: the scale of a checked decimal is at most 28 (R171, R173). -/
theorem resultShape_dcomp128 {d : Bits128} (hd : checkDecimal d = .ok ()) (s : State) :
    ResultShape .dcomp128
      (complete (low64 (decSig d)) (high32 (decSig d)) (BitVec.ofNat 64 (decScale d)) (boolWord (decSign d)) 0 0 s) := by
  obtain ⟨-, -, hscale⟩ := (checkDecimal_ok d).mp hd
  refine ⟨high32_lt _, ?_, boolWord_le_one _, rfl, rfl⟩
  rw [complete_res2, BitVec.toNat_ofNat]
  omega

/-- fractionalPartAsInteger is the significand's remainder (R174). -/
theorem decFracInteger_eq_mod (d : Bits128) : decFracInteger d = decSig d % 10 ^ decScale d := by
  have h := Nat.div_add_mod' (decSig d) (10 ^ decScale d)
  rw [decFracInteger, decIntegerPart]
  omega

/-- A fractional part whose sign flag is clear has fractionalPartAsInteger as its significand (R175). -/
theorem fracSig_of_fracSign_false {d : Bits128} (h : fracSign d = false) : fracSig d = decFracInteger d := by
  cases hs : decSign d with
  | false => simp [fracSig, decFracInteger, hs]
  | true =>
    have hzero : decSig d + decIntegerPart d * 10 ^ decScale d = 0 := by simpa [fracSign, fracSig, hs] using h
    simp only [fracSig, decFracInteger, hs, if_true]
    omega

/-- The fractional part has an encoding, its significand being below 2^96, or raises DomainError (R175). -/
theorem fracDecimal_cases (d : Bits128) :
    fracSig d < 2 ^ 96 ∧ fracDecimal d = .ok (packDecimal (fracSign d) (decScale d) (fracSig d)) ∨
      fracDecimal d = .error .domainError := by
  rw [fracDecimal]
  split
  next => exact .inr rfl
  next hlt => exact .inl ⟨by omega, rfl⟩

/-- DPARTS128: RES2 and RES3 hold a well-formed decimal at the operand's scale, and RES4 and RES5 a remainder below one unit of
that scale (R174 to R176). -/
theorem resultShape_dparts128 {d : Bits128} (hd : checkDecimal d = .ok ()) (hfrac : fracSig d < 2 ^ 96) (r0 : Word)
    (s : State) :
    ResultShape .dparts128
      (complete r0 (high32 (decIntegerPart d))
        ((packDecimal (fracSign d) (decScale d) (fracSig d)).extractLsb' 0 64)
        ((packDecimal (fracSign d) (decScale d) (fracSig d)).extractLsb' 64 64)
        (low64 (decFracInteger d)) (high32 (decFracInteger d)) s) := by
  obtain ⟨-, -, hscale⟩ := (checkDecimal_ok d).mp hd
  generalize ht : complete r0 _ _ _ _ _ s = t
  obtain ⟨hvalid, hk, hv, hs⟩ :=
    operand_of_packDecimal (fractionAsOperand t) _ _ _ hscale hfrac (by rw [← ht]; rfl) (by rw [← ht]; rfl)
  have hmod : decFracInteger d = decSig d % 10 ^ decScale d := decFracInteger_eq_mod d
  have hint : t.res5.toNat * 2 ^ 64 + t.res4.toNat = decFracInteger d := by
    have hsig : decSig d < 2 ^ 96 := by rw [decSig_toNat]; exact Nat.mod_lt _ (by norm_num)
    rw [← ht]
    exact high32_low64 _ (by rw [hmod]; exact (Nat.mod_le _ _).trans_lt hsig)
  have hpack : t.res3 ++ t.res2 = operandDecimal (fractionAsOperand t) := rfl
  refine ⟨by rw [← ht]; exact high32_lt _, by rw [← ht]; exact high32_lt _, ?valid, ?below, ?unsigned⟩
  case valid => rw [hpack]; exact (checkDecimal_operand _).mpr hvalid
  case below =>
    rw [hpack, hint, decScale_operand, hk, hmod]
    exact Nat.mod_lt _ (by positivity)
  case unsigned =>
    rw [hpack, hint, decSign_operand, decSig_operand, hs, hv]
    intro hsign
    exact fracSig_of_fracSign_false (by simpa using hsign)

/-! ### Outcomes -/

/-- STATUS and the results are an outcome of the command: a success with results of its shape, or an error it can raise with
all results 0 (R77, R201 to R203). `CompletedState` says this of the command in CMD. -/
def OutcomeOf (i : Instr) (t : State) : Prop :=
  t.status = statusOk ∧ ResultShape i t ∨ ∃ e, canRaise i e ∧ t.status = statusError e ∧ ResultsZero t

/-- `raise` leaves an outcome of every command that can raise the error (R201). -/
theorem outcomeOf_raiseError {i : Instr} {e : OpError} (h : canRaise i e) (s : State) : OutcomeOf i (raiseError e s) :=
  .inr ⟨e, h, rfl, rfl, rfl, rfl, rfl, rfl, rfl⟩

/-- Whatever a command answers is one of its outcomes. -/
theorem exec_outcomeOf {i : Instr} {s t : State} (h : exec i s = .next t) : OutcomeOf i t := by
  cases i with
  | rev16 => cases h; exact .inl ⟨rfl, zext64_lt (by norm_num) _, rfl, rfl, rfl, rfl, rfl⟩
  | rev32 => cases h; exact .inl ⟨rfl, zext64_lt (by norm_num) _, rfl, rfl, rfl, rfl, rfl⟩
  | rev64 => cases h; exact .inl ⟨rfl, rfl, rfl, rfl, rfl, rfl⟩
  | isprime64 => cases h; exact .inl ⟨rfl, boolWord_le_one _, rfl, rfl, rfl, rfl, rfl⟩
  | fdecomp32 => cases h; exact .inl ⟨rfl, resultShape_decomposeFloat32 _ _⟩
  | fparts32 => cases h; exact .inl ⟨rfl, resultShape_fparts32 _ _⟩
  | dcomp128 =>
    rw [exec, execDcomp128] at h
    rcases checkDecimal_cases (operandDecimal s) with hd | hd <;> rw [hd] at h <;> cases h
    · exact .inl ⟨rfl, resultShape_dcomp128 hd _⟩
    · exact outcomeOf_raiseError (by trivial) _
  | dparts128 =>
    rw [exec, execDparts128] at h
    rcases checkDecimal_cases (operandDecimal s) with hd | hd <;> rw [hd] at h
    · rcases fracDecimal_cases (operandDecimal s) with ⟨hlt, hf⟩ | hf <;> rw [hf] at h <;> cases h
      · exact .inl ⟨rfl, resultShape_dparts128 hd hlt _ _⟩
      · exact outcomeOf_raiseError (by trivial) _
    · cases h; exact outcomeOf_raiseError (by trivial) _

/-- Whatever executing a word answers, it leaves all but STATUS and the results alone. -/
theorem execute_frame {w : Word} {s t : State} (h : execute w s = .next t) : CommandFrame s t := by
  obtain ⟨u, hu, hframe⟩ := execute_next w s
  rw [h] at hu
  cases hu
  exact hframe

/-- Executing the word in CMD ends in a completed state (R72, R206). -/
theorem execute_completedState {w : Word} {s t : State} (h : execute w s = .next t) (hw : s.cmd = w) :
    CompletedState t := by
  obtain ⟨-, -, hcmd, -⟩ := execute_frame h
  unfold CompletedState
  rw [hcmd, hw]
  split
  next i hi => exact exec_outcomeOf (execute_ok hi s ▸ h)
  next r hr =>
    rw [execute_error hr] at h
    cases h
    exact ⟨rfl, rfl, rfl, rfl, rfl, rfl, rfl⟩

end Sys2Proof.Proofs
end

section
/-! What one step can do to the registers, said once (R21 to R27, R230), and the statements about STATUS that follow. -/

namespace Sys2Proof.Proofs

open Sys2Proof.Machine Sys2Proof.Laws

/-- Everything a step that answers a next state can have done to the registers. -/
inductive StepEffect (s : State) : State → Prop
  /-- No event, a read, or an access outside the window: no register changes (R29, R50, R55). -/
  | quiet (q : List HostEvent) (p : Response) : StepEffect s { s with pending := q, response := p }
  /-- A reset of every register (R230, R231). -/
  | reset (e : HostEvent) (rest : List HostEvent) (p : Response) (hp : s.pending = e :: rest) (he : IsReset e) :
      StepEffect s { State.reset with pending := rest, response := p }
  /-- A write of OPND_LO (R21). -/
  | opndLo (e : HostEvent) (rest : List HostEvent) (v : Word) (hp : s.pending = e :: rest) (he : IsWriteOf .opndLo e) :
      StepEffect s { s with opndLo := v, pending := rest, response := .accepted }
  /-- A write of OPND_HI (R22). -/
  | opndHi (e : HostEvent) (rest : List HostEvent) (v : Word) (hp : s.pending = e :: rest) (he : IsWriteOf .opndHi e) :
      StepEffect s { s with opndHi := v, pending := rest, response := .accepted }
  /-- A write of CMD, which executes the word (R23). -/
  | cmd (e : HostEvent) (rest : List HostEvent) (w : Word) (t : State) (hp : s.pending = e :: rest)
      (he : IsWriteOf .cmd e)
      (hx : execute w { s with cmd := w, pending := rest, response := .accepted } = .next t) : StepEffect s t

/-- A state agrees with itself on STATUS and the results. -/
theorem sameOutcome_refl (s : State) : SameOutcome s s := ⟨rfl, rfl, rfl, rfl, rfl, rfl, rfl⟩

/-- A step does one of the things listed. -/
theorem step_effect {s t : State} (h : step s = .next t) : StepEffect s t := by
  cases hp : s.pending with
  | nil =>
    rw [step_of_idle hp] at h
    cases h
    exact .quiet s.pending s.response
  | cons e rest =>
    rw [step_of_pending hp] at h
    rcases acceptEvent_cases e { s with pending := rest } with
      ⟨p, ha⟩ | ⟨he, p, ha⟩ | ⟨r, v, hr, he, ha⟩ | ⟨-, c, ha⟩ <;> rw [ha] at h
    · cases h; exact .quiet rest p
    · cases h; exact .reset e rest p hp he
    · cases r with
      | opndLo => cases h; exact .opndLo e rest v hp he
      | opndHi => cases h; exact .opndHi e rest v hp he
      | cmd => exact .cmd e rest v t hp he h
      | _ => cases hr
    · cases h

/-! ### STATUS after a completion -/

@[simp] theorem statusDone_statusOk : statusDone statusOk = true := rfl

@[simp] theorem statusDone_statusError (e : OpError) : statusDone (statusError e) = true := by cases e <;> rfl

theorem statusErr_statusOk : statusErr statusOk = 0 := rfl

theorem statusErr_statusError (e : OpError) : statusErr (statusError e) = errCode e := by cases e <;> rfl

/-- The error codes are 1 to 3 (R25). -/
theorem errCode_le_three (e : OpError) : (errCode e).toNat ≤ 3 := by cases e <;> decide

/-- A command word leaves DONE = 1 and ERR at most 3 (R25, R26). -/
theorem execute_status {w : Word} {s t : State} (h : execute w s = .next t) :
    statusDone t.status = true ∧ (statusErr t.status).toNat ≤ 3 := by
  rcases execute_cases w s with ⟨r0, r1, r2, r3, r4, r5, hx⟩ | ⟨e, hx⟩ <;> rw [hx] at h <;> cases h
  · rw [complete_status, statusErr_statusOk]
    exact ⟨statusDone_statusOk, by decide⟩
  · rw [raiseError_status, statusErr_statusError]
    exact ⟨statusDone_statusError e, errCode_le_three e⟩

/-- A register read answers the register's value and changes no register (R55). -/
theorem step_issue_readOf (s : State) (r : Reg) :
    step (s.issue (readOf r)) = .next { s with response := .data (readReg s r) } :=
  acceptEvent_readOf r s

/-! ### The invariant -/

/-- Settles O21: no command has run, and CMD, STATUS and the results are 0. -/
theorem resetIsConsistent : Obligations.ResetIsConsistent := .inl ⟨rfl, rfl, rfl, rfl, rfl, rfl, rfl, rfl⟩

/-- Settles O20: a step leaves CMD, STATUS and the results alone, resets them, or executes the word in CMD. -/
theorem everyStepKeepsTheRegistersConsistent : Obligations.EveryStepKeepsTheRegistersConsistent := by
  intro s t hs h
  cases step_effect h with
  | quiet q p => exact consistent_congr hs rfl (sameOutcome_refl s)
  | reset e rest p hp he => exact consistent_congr resetIsConsistent rfl (sameOutcome_refl State.reset)
  | opndLo e rest v hp he => exact consistent_congr hs rfl (sameOutcome_refl s)
  | opndHi e rest v hp he => exact consistent_congr hs rfl (sameOutcome_refl s)
  | cmd e rest w t hp he hx => exact .inr (execute_completedState hx rfl)

/-- The STATUS words a consistent state can hold: 0 before any command, else that of a success or of an error (R201, R202). -/
theorem status_of_consistent {s : State} (h : Consistent s) :
    (s.status = 0 ∧ s.cmd = 0 ∧ ResultsZero s) ∨ s.status = statusOk ∨ ∃ e, s.status = statusError e ∧ ResultsZero s := by
  rcases h with ⟨hcmd, hstatus, hres⟩ | h
  · exact .inl ⟨hstatus, hcmd, hres⟩
  · exact .inr (status_of_completed h)

/-- Settles O22: by the STATUS words a consistent state can hold. -/
theorem consistentStatusReadsBack : Obligations.ConsistentStatusReadsBack := by
  intro s h
  rw [readReg]
  rcases status_of_consistent h with ⟨hst, hcmd, hres⟩ | hst | ⟨e, hst, hres⟩ <;> rw [hst]
  · exact ⟨rfl, fun _ => hres, fun _ => ⟨hcmd, hres⟩⟩
  · exact ⟨rfl, fun herr => absurd statusErr_statusOk herr, fun hdone => absurd hdone (by simp)⟩
  · exact ⟨by cases e <;> rfl, fun _ => hres, fun hdone => absurd hdone (by simp)⟩

/-! ### Frames and writers -/

/-- Settles O16: both completions leave all but STATUS and the results alone. -/
theorem commandsChangeOnlyStatusAndResults : Obligations.CommandsChangeOnlyStatusAndResults := by
  intro i s
  rcases exec_cases i s with ⟨r0, r1, r2, r3, r4, r5, h⟩ | ⟨e, -, h⟩
  · exact ⟨_, h, rfl, rfl, rfl, rfl, rfl⟩
  · exact ⟨_, h, rfl, rfl, rfl, rfl, rfl⟩

/-- Settles O14: the CMD write executes the word, whose completion keeps the frame. -/
theorem everyCommandWriteCompletes : Obligations.EveryCommandWriteCompletes := by
  intro s w
  rw [step_issue, acceptEvent_writeCmd]
  obtain ⟨t, ht, hlo, hhi, hcmd, hpending, hresponse⟩ := execute_next w { s with cmd := w, response := .accepted }
  obtain ⟨hdone, herr⟩ := execute_status ht
  exact ⟨t, ht, hcmd, hlo, hhi, hpending, hresponse, hdone, herr⟩

/-- Settles O17: each effect of a step changes only the registers of its event. -/
theorem registersChangeOnlyByTheirWriters : Obligations.RegistersChangeOnlyByTheirWriters := by
  intro s t h
  cases step_effect h with
  | quiet q p =>
    exact ⟨absurd rfl, absurd rfl, absurd rfl, absurd (sameOutcome_refl s)⟩
  | reset e rest p hp he =>
    have writer : ∀ r, ∃ e rest, s.pending = e :: rest ∧ (IsWriteOf r e ∨ IsReset e) := fun _ => ⟨e, rest, hp, .inr he⟩
    exact ⟨fun _ => writer _, fun _ => writer _, fun _ => writer _, fun _ => writer _⟩
  | opndLo e rest v hp he =>
    exact ⟨fun _ => ⟨e, rest, hp, .inl he⟩, absurd rfl, absurd rfl, absurd (sameOutcome_refl s)⟩
  | opndHi e rest v hp he =>
    exact ⟨absurd rfl, fun _ => ⟨e, rest, hp, .inl he⟩, absurd rfl, absurd (sameOutcome_refl s)⟩
  | cmd e rest w t hp he hx =>
    obtain ⟨hlo, hhi, -⟩ := execute_frame hx
    exact ⟨absurd hlo, absurd hhi, fun _ => ⟨e, rest, hp, .inl he⟩, fun _ => ⟨e, rest, hp, .inl he⟩⟩

/-- Settles O18: a completion sets DONE, and of the effects of a step only a reset clears it. -/
theorem doneStaysSetUntilReset : Obligations.DoneStaysSetUntilReset := by
  refine ⟨rfl, ?set, ?cleared, fun s => ⟨_, step_issue_readOf s .status⟩⟩
  case set =>
    intro s w t h
    rw [step_issue, acceptEvent_writeCmd] at h
    exact (execute_status h).1
  case cleared =>
    intro s t h hset hclear
    cases step_effect h with
    | quiet q p => exact absurd (hset.symm.trans hclear) (by decide)
    | reset e rest p hp he => exact ⟨e, rest, hp, he⟩
    | opndLo e rest v hp he => exact absurd (hset.symm.trans hclear) (by decide)
    | opndHi e rest v hp he => exact absurd (hset.symm.trans hclear) (by decide)
    | cmd e rest w t hp he hx => exact absurd ((execute_status hx).1.symm.trans hclear) (by decide)

/-! ### Reset, idling, CMD writes and STATUS reads -/

/-- Settles O1: by the registers of the reset state. -/
theorem resetLeavesEveryRegisterZero : Obligations.ResetLeavesEveryRegisterZero :=
  ⟨fun r => readReg_reset r [] .none, rfl, rfl, rfl⟩

/-- Settles O7: an eight-lane write at CMD's offset executes its word, which decodes to the command. -/
theorem stepRunsTheDecodedCommand : Obligations.StepRunsTheDecodedCommand := by
  intro s lanes rest i hp hlen hdec
  have haccept : acceptEvent (.write 0x10 lanes) { s with pending := rest } =
      execute (wordOfLanes lanes) { s with cmd := wordOfLanes lanes, pending := rest, response := .accepted } :=
    acceptEvent_write (r := .cmd) hlen _
  rw [step_of_pending hp, haccept, execute_ok hdec]

/-- Settles O15, by induction on the number of steps. -/
theorem theBlockIdlesWithoutAHost : Obligations.TheBlockIdlesWithoutAHost := by
  intro s hp k
  induction k with
  | zero => exact run_zero s
  | succ k ih => rw [run_succ (step_of_idle hp), ih]

/-- The bits of STATUS that a read keeps: ERR, bits 3:0, and DONE, bit 8 (R24). -/
theorem getLsbD_statusReadMask (k : Nat) : statusReadMask.getLsbD k = (decide (k < 4) || k == 8) := by
  by_cases hk : k < 64
  · have hall : ∀ j : Fin 64, statusReadMask.getLsbD j = (decide (j.val < 4) || j.val == 8) := by decide
    exact hall ⟨k, hk⟩
  · have h4 : ¬ k < 4 := by omega
    have h8 : k ≠ 8 := by omega
    rw [BitVec.getLsbD_of_ge _ _ (by omega)]
    simp [h4, h8]

/-- Settles O19: STATUS reads through the mask, bit by bit. -/
theorem reservedStatusBitsReadZero : Obligations.ReservedStatusBitsReadZero := by
  intro s
  have hbit : ∀ k, (readReg s .status).getLsbD k = (s.status.getLsbD k && (decide (k < 4) || k == 8)) := fun k => by
    rw [readReg, BitVec.getLsbD_and, getLsbD_statusReadMask]
  refine ⟨_, step_issue_readOf s .status, fun k h4 h7 => ?_, fun k h9 => ?_, ?err, ?done⟩
  · rw [hbit, decide_eq_false (by omega), beq_false_of_ne (by omega)]; simp
  · rw [hbit, decide_eq_false (by omega), beq_false_of_ne (by omega)]; simp
  case err =>
    apply BitVec.eq_of_getLsbD_eq
    intro k hk
    simp only [statusErr, BitVec.getLsbD_extractLsb', Nat.zero_add, hbit, hk, decide_true, Bool.true_or, Bool.and_true]
  case done => rw [statusDone, hbit]; exact Bool.and_true _

end Sys2Proof.Proofs
end

section
/-! Byte lanes, the window and repeated accesses (R50 to R58). -/

namespace Sys2Proof.Proofs

open Sys2Proof.Machine Sys2Proof.Laws

/-! ### Bus errors -/

/-- A register's offset is aligned and in slots 0 to 9 (R20). -/
theorem regOffset_aligned (r : Reg) : regOffset r % 8 = 0 ∧ regOffset r < 80 := by cases r <;> decide

/-- The registers a host may write are in slots 0 to 2 (R55). -/
theorem regOffset_of_hostWritable {r : Reg} (h : hostWritable r = true) : regOffset r < 24 := by
  cases r with
  | opndLo | opndHi | cmd => decide
  | _ => cases h

/-- A read in the window is refused unless it is 8 bytes wide, aligned and in slots 0 to 9 (R53 to R55). -/
theorem hostRead_fault {o width : Nat} (h : ¬ (width = 8 ∧ o % 8 = 0 ∧ o < 80)) (s : State) :
    ∃ c, hostRead o width s = .fault (.busError c) := by
  rw [hostRead]
  cases hsel : selectReg o width with
  | error c => exact ⟨c, rfl⟩
  | ok r =>
    obtain ⟨rfl, rfl⟩ := selectReg_ok hsel
    exact absurd ⟨rfl, regOffset_aligned r⟩ h

/-- A write in the window is refused unless it is 8 bytes wide, aligned and in slots 0 to 2 (R53 to R55). -/
theorem hostWrite_fault {o : Nat} {lanes : List Byte} (h : ¬ (lanes.length = 8 ∧ o % 8 = 0 ∧ o < 24)) (s : State) :
    ∃ c, hostWrite o lanes s = .fault (.busError c) := by
  rw [hostWrite]
  cases hsel : selectReg o lanes.length with
  | error c => exact ⟨c, rfl⟩
  | ok r =>
    obtain ⟨hlen, rfl⟩ := selectReg_ok hsel
    cases hw : hostWritable r with
    | false => exact ⟨.readOnly, by simp [hw]⟩
    | true => exact absurd ⟨hlen, (regOffset_aligned r).1, regOffset_of_hostWritable hw⟩ h

/-- The displacements in the window are its offsets (R50). -/
theorem inWindow_natCast {o : Nat} (h : o < 128) : inWindow o = true := by
  rw [inWindow, decide_eq_true_eq]; omega

/-- An event that is not legal is refused: the converse of `acceptEvent_legal`. -/
theorem acceptEvent_illegal {e : HostEvent} (h : ¬ LegalEvent e) (s : State) :
    ∃ c, acceptEvent e s = .fault (.busError c) := by
  cases e with
  | read o width =>
    simp only [LegalEvent, Classical.not_imp] at h
    obtain ⟨h0, h128, hill⟩ := h
    lift o to Nat using h0
    simp only [acceptEvent, inWindow_natCast (o := o) (by omega), if_true]
    exact hostRead_fault (by omega) s
  | write o lanes =>
    simp only [LegalEvent, Classical.not_imp] at h
    obtain ⟨h0, h128, hill⟩ := h
    lift o to Nat using h0
    simp only [acceptEvent, inWindow_natCast (o := o) (by omega), if_true]
    exact hostWrite_fault (by omega) s
  | reset => exact absurd trivial h
  | resetDuringCommand w => exact absurd trivial h

/-- Settles O10: a legal event is accepted, any other is refused, and with no event the step is idle. -/
theorem busErrorsAreExactlyTheListedCauses : Obligations.BusErrorsAreExactlyTheListedCauses := by
  intro s
  constructor
  · rintro ⟨f, hf⟩
    cases hp : s.pending with
    | nil => rw [step_of_idle hp] at hf; cases hf
    | cons e rest =>
      refine ⟨e, rest, rfl, fun hlegal => ?_⟩
      obtain ⟨t, ht, -⟩ := acceptEvent_legal hlegal { s with pending := rest }
      rw [step_of_pending hp, ht] at hf
      cases hf
  · rintro ⟨e, rest, hp, hill⟩
    obtain ⟨c, hc⟩ := acceptEvent_illegal hill { s with pending := rest }
    exact ⟨_, (step_of_pending hp).trans hc⟩

/-- Legal pending events stay so: the step takes the first of them, if any, and answers a next state. -/
theorem step_legal {s : State} (h : ∀ e ∈ s.pending, LegalEvent e) :
    ∃ t, step s = .next t ∧ ∀ e ∈ t.pending, LegalEvent e := by
  cases hp : s.pending with
  | nil => exact ⟨s, step_of_idle hp, h⟩
  | cons e rest =>
    rw [hp, List.forall_mem_cons] at h
    obtain ⟨t, ht, hpending⟩ := acceptEvent_legal h.1 { s with pending := rest }
    exact ⟨t, (step_of_pending hp).trans ht, hpending ▸ h.2⟩

/-- Settles O11, by induction on the number of steps. -/
theorem legalHostsRunSafely : Obligations.LegalHostsRunSafely := by
  intro s h k
  induction k generalizing s with
  | zero => exact ⟨s, run_zero s⟩
  | succ k ih =>
    obtain ⟨t, ht, hlegal⟩ := step_legal h
    rw [run_succ ht]
    exact ih t hlegal

/-! ### Byte lanes -/

/-- Lane k of a number is its k-th byte. -/
theorem getElem?_lanesOf {n k : Nat} (hk : k < n) (v : Nat) : (lanesOf n v)[k]? = some (BitVec.ofNat 8 (v / 256 ^ k)) := by
  induction n generalizing k v with
  | zero => omega
  | succ n ih =>
    cases k with
    | zero => simp [lanesOf]
    | succ k => rw [lanesOf, List.getElem?_cons_succ, ih (by omega), Nat.div_div_eq_div_mul, pow_succ']

/-- Bits 8k+7:8k of a value are its k-th byte (R52). -/
theorem laneOf_eq_ofNat (v : Word) (k : Nat) : laneOf v k = BitVec.ofNat 8 (v.toNat / 256 ^ k) := by
  have hbyte : 2 ^ 8 = 256 := rfl
  rw [laneOf, BitVec.extractLsb', Nat.shiftRight_eq_div_pow, pow_mul, hbyte]

/-- The lanes of a 64-bit value are its bytes, bits 7:0 first (R52). -/
theorem getElem?_lanesOf_word (v : Word) {k : Nat} (hk : k < 8) : (lanesOf 8 v.toNat)[k]? = some (laneOf v k) := by
  rw [getElem?_lanesOf hk, laneOf_eq_ofNat]

/-- Settles O13: the stored value is the one whose lanes are those written. -/
theorem byteLanesAreLittleEndian : Obligations.ByteLanesAreLittleEndian := by
  refine ⟨fun s lanes hlen => ?_, fun v k hk => getElem?_lanesOf_word v hk⟩
  have hlane : ∀ k, k < 8 → lanes[k]? = some (laneOf (wordOfLanes lanes) k) := fun k hk => by
    rw [← getElem?_lanesOf_word _ hk, lanesOf_wordOfLanes hlen]
  exact ⟨_, _, acceptEvent_write (r := .opndLo) hlen s, acceptEvent_write (r := .opndHi) hlen s,
    fun k hk => ⟨hlane k hk, hlane k hk⟩⟩

/-! ### Repeated accesses -/

/-- What a host access answers is no register. -/
theorem readReg_response (s : State) (p : Response) (r : Reg) : readReg { s with response := p } r = readReg s r := by
  cases r <;> rfl

/-- Executing a word again changes nothing: its outcome depends only on the operands, which the first execution leaves
alone (R27, R58). -/
theorem execute_idem {w : Word} {s t : State} (h : execute w s = .next t) : execute w t = .next t := by
  obtain ⟨hlo, hhi, -⟩ := execute_frame h
  obtain ⟨t', u, ht', hu, hsame⟩ := execute_sameCompletion (w := w) fun i _ => sameOperand_of_opnd hlo.symm hhi.symm i
  rw [h] at ht'
  cases ht'
  rw [hu, state_eq_of_frame_outcome (execute_frame hu) hsame]

/-- Settles O25: a read changes no register, a store of the same value is absorbed, and so is a second execution. -/
theorem repeatedAccessesAreIdempotent : Obligations.RepeatedAccessesAreIdempotent := by
  refine ⟨fun s r => ?reads, fun s r v hr => ?stores, fun s w => ?commands⟩
  case reads =>
    refine ⟨_, step_issue_readOf s r, ?_, rfl⟩
    simp only [step_issue_readOf, readReg_response]
  case stores =>
    rcases hr with rfl | rfl
    · exact ⟨_, acceptEvent_writeOf .opndLo v s, acceptEvent_writeOf .opndLo v _, rfl⟩
    · exact ⟨_, acceptEvent_writeOf .opndHi v s, acceptEvent_writeOf .opndHi v _, rfl⟩
  case commands =>
    obtain ⟨t, ht, -, -, (hcmd : t.cmd = w), -, (hresponse : t.response = .accepted)⟩ :=
      execute_next w { s with cmd := w, response := .accepted }
    have hstored : { t with cmd := w, response := .accepted } = t := by rw [← hcmd, ← hresponse]
    refine ⟨t, (acceptEvent_writeCmd w s).trans ht, ?_, (execute_status ht).1⟩
    rw [step_issue, acceptEvent_writeCmd, hstored, execute_idem ht]

/-! ### The slots and the base of the window -/

/-- Settles O9: the reads and writes of registers, and the illegal accesses. -/
theorem windowAccessesDoAsListed : Obligations.WindowAccessesDoAsListed := by
  refine ⟨step_issue_readOf, fun s i hlo hhi => ?reservedRead, fun s v => acceptEvent_writeOf .opndLo v s,
    fun s v => acceptEvent_writeOf .opndHi v s, fun s v => acceptEvent_writeCmd v s, fun s i v hlo hhi => ?refusedWrite⟩
  case reservedRead =>
    have hill : ¬ LegalEvent (.read (8 * i : Nat) 8) := by simp only [LegalEvent]; omega
    obtain ⟨c, hc⟩ := acceptEvent_illegal hill s
    exact ⟨_, hc⟩
  case refusedWrite =>
    have hill : ¬ LegalEvent (.write (8 * i : Nat) (lanesOf 8 v.toNat)) := by simp only [LegalEvent]; omega
    obtain ⟨c, hc⟩ := acceptEvent_illegal hill s
    exact ⟨_, hc⟩

/-- The address P_BASE + o has displacement o (R50). -/
theorem offsetOf_pBase_add (o : Nat) : offsetOf (Config.pBase + o) = o := by rw [offsetOf]; omega

/-- An address outside the 128 bytes from P_BASE has a displacement outside the window (R50). -/
theorem inWindow_offsetOf {addr : Nat} (h : addr < Config.pBase ∨ Config.pBase + 128 ≤ addr) :
    inWindow (offsetOf addr) = false := by
  rw [inWindow, offsetOf, decide_eq_false_iff_not]; omega

/-- Settles O12: an address's displacement decides, and at P_BASE + o it is o. -/
theorem windowDecodesFromItsBase : Obligations.WindowDecodesFromItsBase := by
  refine ⟨Nat.mul_mod_right 128 _, fun s addr n h => ?_, fun s addr n v h => ?_, fun s r => ?_, fun s v => ?_⟩
  · rw [step_issue, memRead, acceptEvent, inWindow_offsetOf h]; rfl
  · rw [step_issue, memWrite, acceptEvent, inWindow_offsetOf h]; rfl
  · rw [memRead, offsetOf_pBase_add]
    exact step_issue_readOf s r
  · rw [memWrite, offsetOf_pBase_add]
    exact acceptEvent_writeCmd v s

end Sys2Proof.Proofs
end

section
/-! Command words on the bus: decoding of byte lanes and table rows, illegal words, the operand bits a command reads, and the
command pseudo-instructions (R52, R70 to R73, R79 to R82). -/

namespace Sys2Proof.Proofs

open Sys2Proof.Machine Sys2Proof.Laws

/-! ### Decoding byte lanes and table rows -/

/-- The eight lanes of a word decode as the word does (R52, R72). -/
theorem decodeBytes_lanesOf (w : Word) : decodeBytes (lanesOf 8 w.toNat) = decodeWord w := by
  rw [decodeBytes, if_neg (not_not.mpr (lanesOf_length 8 _)), wordOfLanes_lanesOf]

/-- Only eight bytes can stand for a command (R80). -/
theorem length_of_decodeBytes_ok {bs : List Byte} {i : Instr} (h : decodeBytes bs = .ok i) : bs.length = 8 := by
  by_contra hlen
  rw [decodeBytes, if_pos hlen] at h
  cases h

/-- Settles O5: eight lanes are those of one word, which decodes to a command exactly when it is the command's word. -/
theorem decodeAndEncodeAgree : Obligations.DecodeAndEncodeAgree := by
  intro i _ bs
  constructor
  · intro h
    have hlanes := lanesOf_wordOfLanes (length_of_decodeBytes_ok h)
    have hword : wordOfLanes bs = encode i := by rwa [← hlanes, decodeBytes_lanesOf, decodeWord_eq_ok] at h
    rw [encodeBytes, ← hword, hlanes]
  · rintro rfl
    rw [encodeBytes, decodeBytes_lanesOf, decodeWord_eq_ok]

/-- Settles O4: each word is the encoding of its command. -/
theorem writtenOutWordsDecode : Obligations.WrittenOutWordsDecode :=
  ⟨decodeWord_eq_ok.mpr rfl, decodeWord_eq_ok.mpr rfl, decodeWord_eq_ok.mpr rfl, decodeWord_eq_ok.mpr rfl,
    decodeWord_eq_ok.mpr rfl⟩

/-- A table row of 64 bits is its own word. -/
theorem tableWord_toNat (w : Word) : tableWord 64 w.toNat = w := by
  rw [tableWord, Nat.mod_eq_of_lt w.isLt, BitVec.ofNat_toNat, BitVec.setWidth_eq]

/-- Settles O8: the row's word is the command's, so its lanes decode to the command, and so does the word written to CMD. -/
theorem fetchedTableWordRuns : Obligations.FetchedTableWordRuns := by
  intro s i
  have hdec : decodeWord (encode i) = .ok i := decodeWord_eq_ok.mpr rfl
  constructor
  · rw [decodeTableWord, if_pos le_rfl, tableWord_toNat, decodeBytes_lanesOf, hdec]; rfl
  · rw [State.withFetchWord, tableWord_toNat, step_issue, acceptEvent_writeCmd, execute_ok hdec]

/-! ### Illegal words -/

/-- Settles O6: the decoder rejects the word, and executing it raises the error of code 3. -/
theorem everyOtherWordIsIllegal : Obligations.EveryOtherWordIsIllegal := by
  intro s w hw
  obtain ⟨r, hr⟩ := decodeWord_error_iff.mpr hw
  rw [step_issue, acceptEvent_writeCmd, execute_error hr]
  exact ⟨_, rfl, completedError_raiseError .illegalCommand _⟩

/-! ### The operand bits a command reads -/

/-- Words that agree under a mask agree on a low field that the mask covers. -/
theorem extractLsb'_eq_of_and_eq {n : Nat} {m x y : Word} (hm : m.extractLsb' 0 n = BitVec.allOnes n)
    (h : x &&& m = y &&& m) : x.extractLsb' 0 n = y.extractLsb' 0 n := by
  have hfield := congrArg (BitVec.extractLsb' 0 n) h
  rwa [BitVec.extractLsb'_and, BitVec.extractLsb'_and, hm, BitVec.and_allOnes, BitVec.and_allOnes] at hfield

/-- Words that agree under the full mask are equal. -/
theorem eq_of_and_fullMask_eq {x y : Word} (h : x &&& 0xFFFFFFFFFFFFFFFF = y &&& 0xFFFFFFFFFFFFFFFF) : x = y := by
  have hfull : (0xFFFFFFFFFFFFFFFF : Word) = BitVec.allOnes 64 := rfl
  rwa [hfull, BitVec.and_allOnes, BitVec.and_allOnes] at h

/-- The masks cover what the command reads: states that agree under them hold the same operand (R71, R73). -/
theorem sameOperand_of_operandMasks {i : Instr} {s s' : State}
    (hlo : s.opndLo &&& (operandMasks i).1 = s'.opndLo &&& (operandMasks i).1)
    (hhi : s.opndHi &&& (operandMasks i).2 = s'.opndHi &&& (operandMasks i).2) : SameOperand s s' i := by
  cases i with
  | rev16 => exact extractLsb'_eq_of_and_eq (by decide) hlo
  | rev32 | fdecomp32 | fparts32 => exact extractLsb'_eq_of_and_eq (by decide) hlo
  | rev64 | isprime64 => exact eq_of_and_fullMask_eq hlo
  | dcomp128 | dparts128 => exact congrArg₂ (· ++ ·) (eq_of_and_fullMask_eq hhi) (eq_of_and_fullMask_eq hlo)

/-- Settles O24: the states hold the same operand for the command, so it completes alike from both. -/
theorem unlistedOperandBitsAreIgnored : Obligations.UnlistedOperandBitsAreIgnored :=
  fun _ _ _ hlo hhi => exec_sameCompletion (sameOperand_of_operandMasks hlo hhi)

/-! ### Pseudo-instructions -/

/-- As a number a command's word is its opcode, its RSV field being 0 (R70). -/
theorem toNat_encode (i : Instr) : (encode i).toNat = (opcode i).toNat := by
  have happend := BitVec.toNat_append 0#56 (opcode i)
  rwa [BitVec.toNat_ofNat, Nat.zero_mod, Nat.zero_shiftLeft, Nat.zero_or] at happend

/-- The bus transaction of `st r, imm` is the write of the immediate, which fits in 64 bits (R81). -/
theorem event_st (r : Reg) {imm : Nat} (h : imm < 2 ^ 64) : (HostLine.st r imm).event = writeOf r (BitVec.ofNat 64 imm) := by
  rw [HostLine.event, writeOf, BitVec.toNat_ofNat, Nat.mod_eq_of_lt h]

/-- The accesses of one pseudo-instruction are those of its lines, in order (R82). -/
theorem programEvents_singleton (p : Pseudo) : programEvents [p] = p.expand.map HostLine.event := by
  rw [programEvents, List.flatMap_singleton]

/-- The bus transaction of a line that stores a command's word in CMD is the write of that word (R81). -/
theorem event_st_cmd (i : Instr) : (HostLine.st .cmd (encode i).toNat).event = writeOf .cmd (encode i) := rfl

/-- A run takes a pending store of OPND_LO first (R21). -/
theorem run_writeOpndLo {s : State} {v : Word} {rest : List HostEvent} (h : s.pending = writeOf .opndLo v :: rest)
    (k : Nat) : run (k + 1) s = run k { s with opndLo := v, pending := rest, response := .accepted } :=
  run_succ ((step_of_pending h).trans (acceptEvent_writeOf .opndLo v _)) k

/-- A run takes a pending store of OPND_HI first (R22). -/
theorem run_writeOpndHi {s : State} {v : Word} {rest : List HostEvent} (h : s.pending = writeOf .opndHi v :: rest)
    (k : Nat) : run (k + 1) s = run k { s with opndHi := v, pending := rest, response := .accepted } :=
  run_succ ((step_of_pending h).trans (acceptEvent_writeOf .opndHi v _)) k

/-- A run of one step is that step. -/
theorem run_one (s : State) : run 1 s = step s := by
  cases h : step s <;> simp [run, h]

/-- One step with a store of a command's word to CMD pending runs the command (R23). -/
theorem run_writeCmd {s : State} {i : Instr} (h : s.pending = [writeOf .cmd (encode i)]) :
    run 1 s = exec i { s with cmd := encode i, pending := [], response := .accepted } := by
  rw [run_one, step_of_pending h, acceptEvent_writeCmd, execute_ok (decodeWord_eq_ok.mpr rfl)]

/-- A pseudo-instruction with one operand stores it in OPND_LO and runs its command (R82). -/
theorem run_pseudo_unary {p : Pseudo} {i : Instr} {v : Nat} (hp : p.expand = [.st .opndLo v, .st .cmd (encode i).toNat])
    (hv : v < 2 ^ 64) {s : State} (hs : s.pending = programEvents [p]) :
    run 2 s = exec i { s with opndLo := BitVec.ofNat 64 v, cmd := encode i, pending := [], response := .accepted } := by
  rw [programEvents_singleton, hp, List.map_cons, List.map_singleton, event_st .opndLo hv, event_st_cmd] at hs
  rw [run_writeOpndLo hs, run_writeCmd rfl]

/-- A pseudo-instruction with two operands stores them in OPND_LO and OPND_HI and runs its command (R82). -/
theorem run_pseudo_binary {p : Pseudo} {i : Instr} {lo hi : Nat}
    (hp : p.expand = [.st .opndLo lo, .st .opndHi hi, .st .cmd (encode i).toNat])
    (hlo : lo < 2 ^ 64) (hhi : hi < 2 ^ 64) {s : State} (hs : s.pending = programEvents [p]) :
    run 3 s = exec i { s with opndLo := BitVec.ofNat 64 lo, opndHi := BitVec.ofNat 64 hi, cmd := encode i, pending := [],
                              response := .accepted } := by
  rw [programEvents_singleton, hp, List.map_cons, List.map_cons, List.map_singleton, event_st .opndLo hlo,
    event_st .opndHi hhi, event_st_cmd] at hs
  rw [run_writeOpndLo hs, run_writeOpndHi rfl, run_writeCmd rfl]

/-- Settles O30: each expansion is the stores of its operands and of its command's word. -/
theorem pseudoInstructionsRunTheirCommands : Obligations.PseudoInstructionsRunTheirCommands := by
  refine ⟨fun s v hv q hq => ?unary, fun s lo hi hlo hhi q hq => ?binary, fun s i => ?cmd⟩
  case unary =>
    have hexpand : q.1.expand = [.st .opndLo v, .st .cmd (encode q.2).toNat] := by
      simp only [List.mem_cons, List.not_mem_nil, or_false] at hq
      rw [toNat_encode]
      rcases hq with rfl | rfl | rfl | rfl | rfl | rfl <;> rfl
    rw [run_pseudo_unary hexpand hv rfl]
  case binary =>
    have hexpand : q.1.expand = [.st .opndLo lo, .st .opndHi hi, .st .cmd (encode q.2).toNat] := by
      simp only [List.mem_cons, List.not_mem_nil, or_false] at hq
      rw [toNat_encode]
      rcases hq with rfl | rfl <;> rfl
    rw [run_pseudo_binary hexpand hlo hhi rfl]
  case cmd =>
    have hevents : programEvents [.cmd i] = [writeOf .cmd (encode i)] := programEvents_singleton _
    rw [run_writeCmd hevents]

end Sys2Proof.Proofs
end

section
/-! REV16, REV32 and REV64 at the register interface, and the document's swap network (R100 to R105). -/

namespace Sys2Proof.Proofs

open Sys2Proof.Machine Sys2Proof.Laws

/-! ### The reversed operand -/

/-- What a REV command of width n puts in RES0 for the word w in OPND_LO (R102 to R104). -/
def reverseLow (n : Nat) (w : Word) : Word := zext64 (reverseBits (w.extractLsb' 0 n))

theorem getLsbD_reverseLow_of_lt {n i : Nat} (hn : n ≤ 64) (hi : i < n) (w : Word) :
    (reverseLow n w).getLsbD i = w.getLsbD (n - 1 - i) := by
  have hmirror : n - 1 - i < n := by omega
  simp [reverseLow, zext64, getElem_reverseBits, hi, hi.trans_le hn, hmirror]

theorem getLsbD_reverseLow_of_le {n i : Nat} (hi : n ≤ i) (w : Word) : (reverseLow n w).getLsbD i = false := by
  simp [reverseLow, zext64, hi]

/-- The low n bits of a word as a number. -/
theorem toNat_low_bits (n : Nat) (w : Word) : (w.extractLsb' 0 n).toNat = w.toNat % 2 ^ n := by
  rw [BitVec.extractLsb'_toNat, Nat.shiftRight_zero]

/-- Reversing the reversed operand gives the operand's low n bits back (R105). -/
theorem toNat_reverseLow_reverseLow {n : Nat} (hn : n ≤ 64) (w : Word) :
    (reverseLow n (reverseLow n w)).toNat = w.toNat % 2 ^ n := by
  have hlow : (reverseLow n w).extractLsb' 0 n = reverseBits (w.extractLsb' 0 n) := by
    rw [← BitVec.setWidth_eq_extractLsb' hn, reverseLow, setWidth_zext64 hn]
  rw [reverseLow, hlow, reverseBits_reverseBits, toNat_zext hn, toNat_low_bits]

/-- The reversed operand is the operand's low n bits exactly when they are a palindrome (R105). -/
theorem toNat_reverseLow_eq_iff {n : Nat} (hn : n ≤ 64) (w : Word) :
    (reverseLow n w).toNat = w.toNat % 2 ^ n ↔ ∀ i, i < n → w.getLsbD i = w.getLsbD (n - 1 - i) := by
  rw [reverseLow, toNat_zext hn, ← toNat_low_bits, BitVec.toNat_inj, BitVec.eq_of_getLsbD_eq_iff]
  refine forall₂_congr fun i hi => ?_
  have hmirror : n - 1 - i < n := by omega
  simp [getElem_reverseBits, hi, hmirror, eq_comm]

/-! ### The three commands -/

/-- The REV commands with their widths (R102 to R104). -/
def revCommands : List (Instr × Nat) := [(.rev16, 16), (.rev32, 32), (.rev64, 64)]

theorem width_le_of_mem_revCommands {q : Instr × Nat} (hq : q ∈ revCommands) : q.2 ≤ 64 := by
  revert q; decide

/-- A REV command completes with the reversed operand in RES0 and 0 in the other results. -/
theorem exec_rev {q : Instr × Nat} (hq : q ∈ revCommands) (s : State) :
    exec q.1 s = .next (complete (reverseLow q.2 s.opndLo) 0 0 0 0 0 s) := by
  simp only [revCommands, List.mem_cons, List.not_mem_nil, or_false] at hq
  rcases hq with rfl | rfl | rfl
  · rfl
  · rfl
  · rw [reverseLow, BitVec.extractLsb'_eq_self]; rfl

/-- A REV command succeeds from every state, with only RES0 among the results not 0. -/
theorem exec_rev_completes {q : Instr × Nat} (hq : q ∈ revCommands) (s : State) :
    ∃ t, exec q.1 s = .next t ∧ CompletedOk s t ∧ UpperResultsZero t ∧
      (∀ i, i < q.2 → t.res0.getLsbD i = s.opndLo.getLsbD (q.2 - 1 - i)) ∧ ∀ i, q.2 ≤ i → t.res0.getLsbD i = false :=
  ⟨_, exec_rev hq s, completedOk_complete .., ⟨rfl, rfl, rfl, rfl, rfl⟩,
    fun _ hi => getLsbD_reverseLow_of_lt (width_le_of_mem_revCommands hq) hi _, fun _ hi => getLsbD_reverseLow_of_le hi _⟩

/-- Settles O31: REV16 is the REV command of width 16. -/
theorem rev16ReversesTheLowHalfword : Obligations.Rev16ReversesTheLowHalfword :=
  ⟨decodeWord_eq_ok.mpr rfl, exec_rev_completes (q := (.rev16, 16)) (by decide)⟩

/-- Settles O32: REV32 is the REV command of width 32. -/
theorem rev32ReversesTheLowWord : Obligations.Rev32ReversesTheLowWord :=
  ⟨decodeWord_eq_ok.mpr rfl, exec_rev_completes (q := (.rev32, 32)) (by decide)⟩

/-- Settles O33: REV64 is the REV command of width 64, which leaves no bit of RES0 above the reversed operand. -/
theorem rev64ReversesTheWord : Obligations.Rev64ReversesTheWord := by
  refine ⟨decodeWord_eq_ok.mpr rfl, fun s => ?_⟩
  obtain ⟨t, ht, hok, hupper, hbits, -⟩ := exec_rev_completes (q := (.rev64, 64)) (by decide) s
  exact ⟨t, ht, hok, hupper, hbits⟩

/-- Settles O35: the second command reads the RES0 of the first. -/
theorem reversalIsAnInvolution : Obligations.ReversalIsAnInvolution := by
  intro s q hq
  have hn := width_le_of_mem_revCommands hq
  exact ⟨_, _, exec_rev hq s, exec_rev hq _, toNat_reverseLow_reverseLow hn _, toNat_reverseLow_eq_iff hn _⟩

/-! ### The swap network -/

/-- The widths of the document (R100). -/
def revWidths : List Nat := [16, 32, 64]

/-- The group widths of the network's steps (R101). -/
def swapWidths : List Nat := [1, 2, 4, 8, 16, 32]

/-- The input position that output bit i of the network's steps `ks` comes from: each step below n complements one bit of the
position. -/
def swapSource (n : Nat) (ks : List Nat) (i : Nat) : Nat := ks.foldr (fun k p => if k < n then p ^^^ k else p) i

/-- Exchanging adjacent k-bit groups complements bit log2 k of every position (R101). -/
theorem swapped_position_eq_xor : ∀ k ∈ swapWidths, ∀ i < 64, (if i / k % 2 = 0 then i + k else i - k) = i ^^^ k := by
  decide

theorem revWidth_le : ∀ n ∈ revWidths, n ≤ 64 := by decide

/-- A group width below n divides n into an even number of groups. -/
theorem mod_two_mul_swapWidth : ∀ n ∈ revWidths, ∀ k ∈ swapWidths, k < n → n % (2 * k) = 0 := by decide

/-- A position stays below n when a step below n complements a bit of it. -/
theorem xor_lt_revWidth {n i k : Nat} (hn : n ∈ revWidths) (hi : i < n) (hk : k < n) : i ^^^ k < n := by
  simp only [revWidths, List.mem_cons, List.not_mem_nil, or_false] at hn
  rcases hn with rfl | rfl | rfl
  · exact Nat.xor_lt_two_pow (n := 4) hi hk
  · exact Nat.xor_lt_two_pow (n := 5) hi hk
  · exact Nat.xor_lt_two_pow (n := 6) hi hk

theorem swapSource_cons (n k : Nat) (ks : List Nat) (i : Nat) :
    swapSource n (k :: ks) i = if k < n then swapSource n ks i ^^^ k else swapSource n ks i := rfl

theorem swapSource_lt {n i : Nat} (hn : n ∈ revWidths) (ks : List Nat) (hi : i < n) : swapSource n ks i < n := by
  induction ks with
  | nil => exact hi
  | cons k ks ih =>
    rw [swapSource_cons]
    split
    · exact xor_lt_revWidth hn ih ‹_›
    · exact ih

/-- The steps `ks` of the network move bit `swapSource n ks i` to position i. -/
theorem getLsbD_foldl_swapStep {n i : Nat} (hn : n ∈ revWidths) (hi : i < n) {ks : List Nat}
    (hks : ∀ k ∈ ks, k ∈ swapWidths) (x : BitVec n) :
    (ks.foldl (fun y k => if k < n then swapStep k y else y) x).getLsbD i = x.getLsbD (swapSource n ks i) := by
  have h64 := revWidth_le n hn
  induction ks generalizing x with
  | nil => rfl
  | cons k ks ih =>
    rw [List.forall_mem_cons] at hks
    obtain ⟨hk, hks⟩ := hks
    have hlt := swapSource_lt hn ks hi
    rw [List.foldl_cons, ih hks, swapSource_cons]
    split
    next hkn =>
      rw [getLsbD_swapStep h64 hk (mod_two_mul_swapWidth n hn k hk hkn) x _ hlt,
        swapped_position_eq_xor k hk _ (hlt.trans_le h64)]
    next => rfl

/-- The steps together complement every bit of the position, which mirrors it (R101). -/
theorem swapSource_swapWidths : ∀ n ∈ revWidths, ∀ i < n, swapSource n swapWidths i = n - 1 - i := by decide

/-- The swap network reverses (R101). -/
theorem swapNetwork_eq_reverseBits {n : Nat} (hn : n ∈ revWidths) (x : BitVec n) : swapNetwork x = reverseBits x := by
  apply BitVec.eq_of_getLsbD_eq
  intro i hi
  have hnetwork := getLsbD_foldl_swapStep hn hi (fun _ hk => hk) x
  rw [swapSource_swapWidths n hn i hi] at hnetwork
  rw [getLsbD_reverseBits, decide_eq_true hi, Bool.true_and]
  exact hnetwork

/-- Settles O34: position by position, at the three widths. -/
theorem swapNetworkEqualsTheReversal : Obligations.SwapNetworkEqualsTheReversal :=
  ⟨swapNetwork_eq_reverseBits (by decide), swapNetwork_eq_reverseBits (by decide), swapNetwork_eq_reverseBits (by decide)⟩

end Sys2Proof.Proofs
end

section
/-! miller_rabin_primality_tester: each of its functions against exact integers, the verdict of R121, and why no prime is
rejected (R120 to R125). -/

namespace Sys2Proof.Proofs

open Sys2Proof.Machine Sys2Proof.Laws

/-! ### The functions of the test -/

/-- Bit i of the mask tells whether i is prime, for i < 64 (R120). -/
theorem getLsbD_primeMask64_iff : ∀ i, i < 64 → (primeMask64.getLsbD i = true ↔ i.Prime) := by decide

/-- Squaring computes the exact residue, with one unit of fuel for each bit of the exponent (R123). -/
theorem modExp_eq {fuel d : Nat} (hd : d < 2 ^ fuel) (a n : Nat) : modExp fuel a d n = a ^ d % n := by
  induction fuel generalizing a d with
  | zero =>
    obtain rfl : d = 0 := by omega
    rfl
  | succ fuel ih =>
    have hhalf : modExp fuel (a * a % n) (d / 2) n = a ^ (2 * (d / 2)) % n := by
      rw [ih (by omega), ← Nat.pow_mod, pow_mul, sq]
    rw [modExp, hhalf]
    split
    next hzero => rw [hzero, pow_zero]
    next =>
      split
      next hodd =>
        rw [Nat.mul_mod_mod, ← pow_succ']
        congr 2
        omega
      next heven =>
        congr 2
        omega

/-- Halving takes all r twos out of 2^r · d, d odd (R121 step 4); so r and d are the only such factors. -/
theorem splitTwos_two_pow_mul {fuel r d : Nat} (hr : r ≤ fuel) (hd : d % 2 = 1) (s : Nat) :
    splitTwos fuel (2 ^ r * d) s = (d, s + r) := by
  induction fuel generalizing r s with
  | zero =>
    obtain rfl : r = 0 := by omega
    rw [splitTwos, pow_zero, one_mul, add_zero]
  | succ fuel ih =>
    rw [splitTwos]
    cases r with
    | zero => rw [pow_zero, one_mul, if_neg (by omega), add_zero]
    | succ r =>
      have hdouble : 2 ^ (r + 1) * d = 2 * (2 ^ r * d) := by ring
      rw [hdouble, if_pos (Nat.mul_mod_right ..), Nat.mul_div_cancel_left _ (by norm_num), ih (by omega), add_right_comm,
        add_assoc]

/-- The squaring loop looks for n - 1 among the next k squares (R121 step 5). -/
theorem squareLoop_iff (k x n : Nat) : squareLoop k x n = true ↔ ∃ j < k, x ^ 2 ^ (j + 1) % n = n - 1 := by
  induction k generalizing x with
  | zero => simp [squareLoop]
  | succ k ih =>
    have hsquare (j : Nat) : (x * x % n) ^ 2 ^ (j + 1) % n = x ^ 2 ^ (j + 1 + 1) % n := by
      rw [← Nat.pow_mod, ← sq, ← pow_mul, ← pow_succ']
    rw [squareLoop, Nat.exists_lt_succ_left, zero_add, pow_one, sq]
    split
    next h => simp [h]
    next h => simp only [ih, hsquare, h, false_or]

/-- One witness passes when a^d, or one of its squares below the r-th, is as for a prime (R121 step 5). -/
theorem witnessPasses_iff {n d r a : Nat} (ha : a < n) (hd : d < 2 ^ 64) (hr : 0 < r) :
    witnessPasses n d r a = true ↔ a ^ d % n = 1 ∨ ∃ k < r, a ^ (2 ^ k * d) % n = n - 1 := by
  obtain ⟨r, rfl⟩ := Nat.exists_eq_add_one_of_ne_zero hr.ne'
  have hpow (j : Nat) : (a ^ d % n) ^ 2 ^ (j + 1) % n = a ^ (2 ^ (j + 1) * d) % n := by
    rw [← Nat.pow_mod, ← pow_mul, mul_comm]
  rw [witnessPasses, if_neg (by omega), modExp_eq hd, Nat.exists_lt_succ_left, pow_zero, one_mul, ← or_assoc]
  split
  next h => simp only [h, true_or]
  next h => simp only [h, false_or, add_tsub_cancel_right, squareLoop_iff, hpow]

/-! ### The verdict -/

/-- For an odd n, steps 4 and 5 test a witness with the factors of n - 1 = 2^r · d, d odd. -/
theorem witnessPasses_splitTwos {n r d a : Nat} (hodd : n % 2 = 1) (hn : n < 2 ^ 64) (ha : a < n)
    (hrd : n - 1 = 2 ^ r * d) (hd : d % 2 = 1) :
    witnessPasses n (splitTwos 64 (n - 1) 0).1 (splitTwos 64 (n - 1) 0).2 a = true ↔
      a ^ d % n = 1 ∨ ∃ k < r, a ^ (2 ^ k * d) % n = n - 1 := by
  have hrpow : 2 ^ r ≤ 2 ^ r * d := Nat.le_mul_of_pos_right _ (by omega)
  have hdle : d ≤ 2 ^ r * d := Nat.le_mul_of_pos_left _ (Nat.two_pow_pos r)
  have hr : r < 64 := (Nat.pow_lt_pow_iff_right (by norm_num : 1 < 2)).mp (by omega)
  have hr0 : r ≠ 0 := by
    rintro rfl
    omega
  have hsplit : splitTwos 64 (n - 1) 0 = (d, r) := by rw [hrd, splitTwos_two_pow_mul hr.le hd, zero_add]
  rw [hsplit]
  exact witnessPasses_iff ha (by omega) (Nat.pos_of_ne_zero hr0)

/-- Steps 4 and 5 decide for one witness a whether an odd n is a strong probable prime to it. -/
theorem witnessPasses_splitTwos_iff {n a : Nat} (hodd : n % 2 = 1) (h1 : 1 < n) (hn : n < 2 ^ 64) (ha : a < n) :
    witnessPasses n (splitTwos 64 (n - 1) 0).1 (splitTwos 64 (n - 1) 0).2 a = true ↔ StrongProbablePrime a n := by
  constructor
  · intro h
    obtain ⟨r, d, hd, hrd⟩ := Nat.exists_eq_two_pow_mul_odd (n := n - 1) (by omega)
    have hd := Nat.odd_iff.mp hd
    exact ⟨r, d, hrd, hd, (witnessPasses_splitTwos hodd hn ha hrd hd).mp h⟩
  · rintro ⟨r, d, hrd, hd, h⟩
    exact (witnessPasses_splitTwos hodd hn ha hrd hd).mpr h

/-- Steps 4 to 6: an odd n from 64 on passes when it is a strong probable prime to every witness (R121, R122). -/
theorem millerRabin_iff {n : Nat} (hodd : n % 2 = 1) (hlarge : 64 ≤ n) (hn : n < 2 ^ 64) :
    millerRabin n = true ↔ ∀ a ∈ witnesses, StrongProbablePrime a n := by
  have hwitness : ∀ a ∈ witnesses, a < 64 := by decide
  rw [millerRabin, List.all_eq_true]
  exact forall₂_congr fun a ha =>
    witnessPasses_splitTwos_iff hodd (by omega) hn ((hwitness a ha).trans_le hlarge)

/-- Step 3 rejects exactly the multiples of a trial prime (R121, R122). -/
theorem any_trialPrimes_iff (n : Nat) : trialPrimes.any (fun p => n % p == 0) = true ↔ ¬ ∀ p ∈ trialPrimes, ¬ p ∣ n := by
  simp only [List.any_eq_true, beq_iff_eq, ← Nat.dvd_iff_mod_eq_zero, not_forall, not_not, exists_prop]

/-- The verdict, with the lists of R122 by their names. -/
theorem acceptedByTest_iff (n : Nat) :
    AcceptedByTest n ↔ n < 64 ∧ n.Prime ∨
      64 ≤ n ∧ n % 2 = 1 ∧ (∀ p ∈ trialPrimes, ¬ p ∣ n) ∧ ∀ a ∈ witnesses, StrongProbablePrime a n := Iff.rfl

/-- The six steps give the verdict told in exact integers (R121). -/
theorem isPrime64_iff {n : Nat} (hn : n < 2 ^ 64) : isPrime64 n = true ↔ AcceptedByTest n := by
  rw [isPrime64, acceptedByTest_iff]
  split
  next hsmall =>
    rw [getLsbD_primeMask64_iff n hsmall, and_iff_right hsmall, or_iff_left fun h => Nat.not_le.mpr hsmall h.1]
  next hlarge =>
    rw [or_iff_right fun h => hlarge h.1, and_iff_right (Nat.not_lt.mp hlarge)]
    split
    next heven => simp [heven]
    next hodd =>
      split
      next hdvd => simp [(any_trialPrimes_iff n).mp hdvd]
      next hdvd =>
        rw [any_trialPrimes_iff, not_not] at hdvd
        rw [and_iff_right (by omega), and_iff_right hdvd, millerRabin_iff (by omega) (by omega) hn]

/-! ### Primes -/

/-- Where 1 has no square roots but 1 and -1, the squares that lead from x to 1 start at 1 or pass through -1. -/
theorem eq_one_or_exists_eq_neg_one {R : Type*} [Ring R] [NoZeroDivisors R] {x : R} {r : Nat} (h : x ^ 2 ^ r = 1) :
    x = 1 ∨ ∃ k < r, x ^ 2 ^ k = -1 := by
  induction r with
  | zero => exact .inl (by rwa [pow_zero, pow_one] at h)
  | succ r ih =>
    rw [pow_succ, pow_mul, sq_eq_one_iff] at h
    rcases h with h | h
    · exact (ih h).imp_right fun ⟨k, hk, hneg⟩ => ⟨k, by omega, hneg⟩
    · exact .inr ⟨r, by omega, h⟩

/-- A prime is a strong probable prime to every base it does not divide: by Fermat a^(p - 1) = 1 in the field of its
residues. -/
theorem strongProbablePrime_of_prime {p a : Nat} (hp : p.Prime) (ha : ¬ p ∣ a) :
    StrongProbablePrime a p := by
  have := Fact.mk hp
  have hp2 := hp.two_le
  obtain ⟨r, d, hd, hrd⟩ := Nat.exists_eq_two_pow_mul_odd (n := p - 1) (by omega)
  refine ⟨r, d, hrd, Nat.odd_iff.mp hd, ?_⟩
  have hfermat : ((a : ZMod p) ^ d) ^ 2 ^ r = 1 := by
    rw [← pow_mul, mul_comm, ← hrd]
    exact ZMod.pow_card_sub_one_eq_one ((ZMod.natCast_eq_zero_iff ..).not.mpr ha)
  refine (eq_one_or_exists_eq_neg_one hfermat).imp ?_ ?_
  · intro h
    have hcast : ((a ^ d : ℕ) : ZMod p) = (1 : ℕ) := by push_cast; exact h
    rwa [ZMod.natCast_eq_natCast_iff', Nat.mod_eq_of_lt hp.one_lt] at hcast
  · rintro ⟨k, hk, h⟩
    have hcast : ((a ^ (2 ^ k * d) : ℕ) : ZMod p) = (p - 1 : ℕ) := by
      rw [Nat.cast_pred hp.pos, ZMod.natCast_self, zero_sub, mul_comm, pow_mul]
      push_cast
      exact h
    rw [ZMod.natCast_eq_natCast_iff', Nat.mod_eq_of_lt (Nat.sub_lt hp.pos one_pos)] at hcast
    exact ⟨k, hk, hcast⟩

/-- The test accepts every prime (R125): from 64 on, a prime is none of the trial primes and divides no witness. -/
theorem acceptedByTest_of_prime {p : Nat} (hp : p.Prime) : AcceptedByTest p := by
  rw [acceptedByTest_iff]
  rcases Nat.lt_or_ge p 64 with hsmall | hlarge
  · exact .inl ⟨hsmall, hp⟩
  · refine .inr ⟨hlarge, hp.eq_two_or_odd.resolve_left (by omega), fun q hq hdvd => ?_, fun a ha => ?_⟩
    · have htrial : ∀ q ∈ trialPrimes, q ≠ 1 ∧ q < 64 := by decide
      obtain ⟨hne, hlt⟩ := htrial q hq
      have := (Nat.dvd_prime hp).mp hdvd
      omega
    · have hwitness : ∀ a ∈ witnesses, 0 < a ∧ a < 64 := by decide
      obtain ⟨hpos, hlt⟩ := hwitness a ha
      exact strongProbablePrime_of_prime hp (Nat.not_dvd_of_pos_of_lt hpos (by omega))

/-! ### The command -/

/-- ISPRIME64 completes with the test's answer on OPND_LO in RES0 (R124). -/
theorem exec_isprime64 (s : State) :
    exec .isprime64 s = .next (complete (boolWord (isPrime64 s.opndLo.toNat)) 0 0 0 0 0 s) := rfl

/-- RES0 is 1 when the test accepts the operand. -/
theorem exec_isprime64_of_accepted {s : State} (h : isPrime64 s.opndLo.toNat = true) :
    ∃ t, exec .isprime64 s = .next t ∧ t.res0 = 1 := by
  rw [exec_isprime64, h]
  exact ⟨_, rfl, rfl⟩

/-- Settles O37: 64 units of fuel serve every exponent below 2^64. -/
theorem modularExponentiationIsExact : Obligations.ModularExponentiationIsExact :=
  fun a _ n hd => modExp_eq hd a n

/-- Settles O38: the completion's RES0 is the Boolean that decides the verdict. -/
theorem isprime64GivesTheTestsVerdict : Obligations.Isprime64GivesTheTestsVerdict := by
  refine ⟨rfl, fun s => ⟨_, exec_isprime64 s, completedOk_complete .., ⟨rfl, rfl, rfl, rfl, rfl⟩, ?_, ?_⟩⟩ <;> intro h
  · rw [complete_res0, (isPrime64_iff s.opndLo.isLt).mpr h]; rfl
  · rw [← isPrime64_iff s.opndLo.isLt, Bool.not_eq_true] at h
    rw [complete_res0, h]; rfl

/-- Settles O39: the test accepts every prime. -/
theorem primesAreNeverRejected : Obligations.PrimesAreNeverRejected :=
  fun s hp => exec_isprime64_of_accepted ((isPrime64_iff s.opndLo.isLt).mpr (acceptedByTest_of_prime hp))

/-- Settles O36: checked at each of the 64 positions. -/
theorem primeMaskMarksThePrimes : Obligations.PrimeMaskMarksThePrimes := ⟨rfl, getLsbD_primeMask64_iff⟩

/-- Settles O40: the test run on the two products. -/
theorem twoCompositesAreAccepted : Obligations.TwoCompositesAreAccepted := by
  refine ⟨fun s hs => ?_, fun s hs => ?_, by norm_num, by norm_num⟩
  · exact exec_isprime64_of_accepted (by rw [hs]; decide +kernel)
  · exact exec_isprime64_of_accepted (by rw [hs]; decide +kernel)

end Sys2Proof.Proofs
end

section
/-! ieee754_float_decomposer: the raw fields of FDECOMP32, and truncation toward zero with its exact remainder for FPARTS32
(R140 to R151). -/

namespace Sys2Proof.Proofs

open Sys2Proof.Machine Sys2Proof.Laws

/-! ### Fields and classes -/

/-- The sign bit as a number (R140). -/
theorem toNat_fSign (b : Bits32) : (fSign b).toNat = b.toNat / 2 ^ 31 := by
  have := b.isLt
  rw [fSign_toNat]
  rcases (show b.toNat / 2 ^ 31 = 0 ∨ b.toNat / 2 ^ 31 = 1 by omega) with h | h <;> rw [h] <;> rfl

/-- A sign bit is 1 from the pattern 2^31 on (R140). -/
theorem fSign_eq_true_iff (b : Bits32) : fSign b = true ↔ 2 ^ 31 ≤ b.toNat := by
  have := b.isLt
  rw [fSign_toNat, decide_eq_true_iff]
  omega

theorem fExp_eq_zero_iff (b : Bits32) : fExp b = 0#8 ↔ b.toNat / 2 ^ 23 % 2 ^ 8 = 0 := by
  rw [← fExp_toNat, ← BitVec.toNat_inj]
  rfl

theorem isNaN_iff (b : Bits32) : isNaN b = true ↔ fExp b = 255#8 ∧ fMant b ≠ 0#23 := by
  rw [isNaN, Bool.and_eq_true, beq_iff_eq, bne_iff_ne]

/-- An infinity is no NaN (R141). -/
theorem isNaN_eq_false_of_isInf {b : Bits32} (h : isInf b = true) : isNaN b = false := by
  rw [isInf, Bool.and_eq_true, beq_iff_eq, beq_iff_eq] at h
  obtain ⟨-, hmant⟩ := h
  rw [isNaN, hmant, bne_self_eq_false, Bool.and_false]

/-- Settles O47: the drawn exponent and mantissa are those of a NaN. -/
theorem everyDrawIsANaN : Obligations.EveryDrawIsANaN :=
  fun b k => (isNaN_iff _).mp (isNaN_nanOut b k)

/-! ### FDECOMP32 -/

theorem sigOut_raw_toNat (b : Bits32) : (sigOut .raw b).toNat = b.toNat % 2 ^ 23 := by
  rw [sigOut, toNat_zext (by norm_num), fMant_toNat]

/-- The hidden bit is added for a biased exponent that is not 0 (R143). -/
theorem sigOut_hiddenBit_toNat (b : Bits32) :
    (sigOut .hiddenBit b).toNat = b.toNat % 2 ^ 23 + if b.toNat / 2 ^ 23 % 2 ^ 8 = 0 then 0 else 2 ^ 23 := by
  simp only [sigOut, BitVec.toNat_add, toNat_zext (show 23 ≤ 64 by norm_num), fMant_toNat, ne_eq, fExp_eq_zero_iff, ite_not]
  split <;> rw [BitVec.toNat_ofNat] <;> omega

/-- Settles O42: the two forms of the significand as numbers. -/
theorem significandUnderBothForms : Obligations.SignificandUnderBothForms :=
  ⟨rfl, sigOut_raw_toNat, fun b h => by rw [sigOut_hiddenBit_toNat, if_pos h, add_zero],
    fun b h => by rw [sigOut_hiddenBit_toNat, if_neg h]⟩

theorem tc64_signOut_toInt (b : Bits32) : (tc64 (signOut b)).toInt = if 2 ^ 31 ≤ b.toNat then -1 else 1 := by
  simp only [signOut, fSign_eq_true_iff]
  split <;> exact tc64_toInt (by norm_num) (by norm_num)

theorem tc64_exponentOut_toInt (b : Bits32) : (tc64 (exponentOut b)).toInt = (b.toNat / 2 ^ 23 % 2 ^ 8 : Nat) - 127 := by
  have := (fExp b).isLt
  rw [exponentOut, tc64_toInt (by omega) (by omega), fExp_toNat]

/-- FDECOMP32 completes with the fields under RAW (R144). -/
theorem exec_fdecomp32 (s : State) :
    exec .fdecomp32 s = .next (complete (tc64 (signOut (operand32 s))) (tc64 (exponentOut (operand32 s)))
      (sigOut .raw (operand32 s)) (boolWord (fSign (operand32 s))) (zext64 (fExp (operand32 s)))
      (zext64 (fMant (operand32 s))) s) := rfl

/-- Settles O41: each result word as a number of the operand. -/
theorem fdecomp32ExtractsTheFields : Obligations.Fdecomp32ExtractsTheFields := by
  refine ⟨decodeWord_eq_ok.mpr rfl, fun s => ⟨_, exec_fdecomp32 s, completedOk_complete .., ?_⟩⟩
  rw [← operand32_toNat]
  exact ⟨fun h => (tc64_signOut_toInt _).trans (if_neg (by omega)), fun h => (tc64_signOut_toInt _).trans (if_pos h),
    tc64_exponentOut_toInt _, sigOut_raw_toNat _, (boolWord_toNat _).trans (toNat_fSign _),
    (toNat_zext (by norm_num) _).trans (fExp_toNat _), (toNat_zext (by norm_num) _).trans (fMant_toNat _)⟩

/-- Settles O43: the fields are the operand's digits at 2^31 and 2^23. -/
theorem fdecomp32FieldsRebuildTheOperand : Obligations.Fdecomp32FieldsRebuildTheOperand := by
  intro s
  obtain ⟨t, ht, -, hplus, hminus, hexponent, hsig, hsign, hexp, hmant⟩ := fdecomp32ExtractsTheFields.2 s
  have hlt : floatOperand s < 2 ^ 32 := Nat.mod_lt _ (by norm_num)
  refine ⟨t, ht, by omega, ?_⟩
  rw [hexponent, hsig]
  rcases lt_or_ge (floatOperand s) (2 ^ 31) with h | h
  · rw [hplus h]; omega
  · rw [hminus h]; omega

/-! ### Truncation by exponent class (R145) -/

theorem trunc_of_isInf {b : Bits32} (h : isInf b = true) : trunc b = b := by
  rw [trunc, if_pos h]

theorem trunc_of_isNaN {b : Bits32} (h : isNaN b = true) : trunc b = nanOut b .integerPart := by
  have hinf : ¬ isInf b = true := fun hi => by rw [isNaN_eq_false_of_isInf hi] at h; cases h
  rw [trunc, if_neg hinf, if_pos h]

/-- Below 1 in magnitude a zero of the same sign is left (R145). -/
theorem trunc_of_lt_one {b : Bits32} (h : (fExp b).toNat ≤ 126) : trunc b = packFloat (fSign b) 0#8 0#23 := by
  obtain ⟨hinf, hnan⟩ := not_inf_nan_of_isFinite ((isFinite_iff b).mpr (by omega))
  simp only [trunc, hinf, hnan, Bool.false_eq_true, if_false, if_pos h]

/-- From 2^23 on a finite value is integral (R145). -/
theorem trunc_of_integral {b : Bits32} (h : 150 ≤ (fExp b).toNat) (hf : isFinite b = true) : trunc b = b := by
  obtain ⟨hinf, hnan⟩ := not_inf_nan_of_isFinite hf
  simp only [trunc, hinf, hnan, Bool.false_eq_true, if_false]
  rw [if_neg (by omega), if_pos h]

/-- Between 1 and 2^23 the fraction bits are cleared (R145). -/
theorem toNat_trunc_of_mixed {b : Bits32} (h1 : 127 ≤ (fExp b).toNat) (h2 : (fExp b).toNat ≤ 149) :
    (trunc b).toNat = b.toNat / 2 ^ (150 - (fExp b).toNat) * 2 ^ (150 - (fExp b).toNat) := by
  obtain ⟨hinf, hnan⟩ := not_inf_nan_of_isFinite ((isFinite_iff b).mpr (by omega))
  simp only [trunc, hinf, hnan, Bool.false_eq_true, if_false]
  rw [if_neg (by omega), if_neg (by omega), clear_low_toNat]

/-- Settles O46: class by class; a finite magnitude loses the remainder that truncation takes off. -/
theorem truncationByExponentClass : Obligations.TruncationByExponentClass := by
  refine fun b => ⟨trunc_of_isInf, trunc_of_isNaN, fun h => ?small,
    fun h1 h2 => trunc_of_integral h1 ((isFinite_iff b).mpr h2), toNat_trunc_of_mixed, fun hf => ?finite⟩
  case small =>
    rw [trunc_of_lt_one h, packFloat_toNat, toNat_fSign, BitVec.toNat_zero, BitVec.toNat_zero, Nat.zero_mul, Nat.add_zero]
  case finite =>
    obtain ⟨hs, -, c, j, hm, -⟩ := trunc_finite hf
    exact ⟨hs, by rw [valueOf_natAbs, valueOf_natAbs]; omega⟩

/-! ### Integer and fractional parts of finite values -/

/-- Clearing k fraction bits of a pattern with biased exponent e = 150 - k leaves a whole number: a multiple of 2^149 units
(R145). -/
theorem two_pow_dvd_magnitude {t : Bits32} {k : Nat} (hk : k ≤ 23) (he : (fExp t).toNat + k = 150) (ht : 2 ^ k ∣ t.toNat) :
    2 ^ 149 ∣ magnitude t := by
  have hmant : 2 ^ k ∣ 2 ^ 23 + t.toNat % 2 ^ 23 :=
    dvd_add (pow_dvd_pow 2 hk) ((Nat.dvd_mod_iff (pow_dvd_pow 2 hk)).mpr ht)
  have hsplit : 2 ^ 149 = 2 ^ k * 2 ^ ((fExp t).toNat - 1) := by rw [← pow_add]; congr 1; omega
  rw [magnitude_toNat, if_neg (by omega), hsplit]
  exact Nat.mul_dvd_mul_right hmant _

/-- The integer part of a finite value is a whole number, in each exponent class (R145). -/
theorem two_pow_dvd_magnitude_trunc {b : Bits32} (hf : isFinite b = true) : 2 ^ 149 ∣ magnitude (trunc b) := by
  rcases le_or_gt (fExp b).toNat 126 with hsmall | hone
  · rw [trunc_of_lt_one hsmall, magnitude, fExp_packFloat, fMant_packFloat]
    exact dvd_zero _
  rcases le_or_gt 150 (fExp b).toNat with hlarge | hmixed
  · rw [trunc_of_integral hlarge hf, magnitude_toNat, if_neg (by omega)]
    exact Dvd.dvd.mul_left (pow_dvd_pow 2 (by omega)) _
  · have ht := toNat_trunc_of_mixed hone (Nat.le_of_lt_succ hmixed)
    obtain ⟨-, hexp, -⟩ := clear_fraction (by omega) (by omega) ht
    exact two_pow_dvd_magnitude (k := 150 - (fExp b).toNat) (by omega) (by rw [hexp]; omega) (ht ▸ Nat.dvd_mul_left ..)

/-- Truncation leaves the largest whole number within the magnitude (R145). -/
theorem magnitude_trunc {b : Bits32} (hf : isFinite b = true) :
    magnitude (trunc b) = magnitude b / 2 ^ 149 * 2 ^ 149 := by
  obtain ⟨-, -, c, j, hm, hlt, -⟩ := trunc_finite hf
  obtain ⟨q, hq⟩ := two_pow_dvd_magnitude_trunc hf
  omega

/-- In exact numbers `trunc` is division toward zero by the 2^149 units of 1 (R145). -/
theorem valueOf_trunc {b : Bits32} (hf : isFinite b = true) :
    valueOf (trunc b) = (valueOf b).tdiv (2 ^ 149) * 2 ^ 149 := by
  rw [valueOf_sign, valueOf_sign, (trunc_finite hf).1, magnitude_trunc hf]
  split
  · simp [Int.neg_tdiv]
  · simp

/-- The difference to a value of the same sign and no larger magnitude has that sign unless it is 0. -/
theorem decide_valueOf_sub_neg {b t : Bits32} (hs : fSign t = fSign b) (hle : magnitude t ≤ magnitude b)
    (hne : valueOf b ≠ valueOf t) : decide (valueOf b - valueOf t < 0) = fSign b := by
  cases h : fSign b with
  | true => simp only [valueOf, hs, h, if_true] at hne ⊢; exact decide_eq_true (by omega)
  | false => simp only [valueOf, hs, h, Bool.false_eq_true, if_false] at hne ⊢; exact decide_eq_false (by omega)

/-- The fractional part of a finite value is the exact rest, with the operand's sign unless it is +0.0 (R146, R147). -/
theorem fracPart_exact {b : Bits32} (hf : isFinite b = true) :
    valueOf (fracPart b) = valueOf b - valueOf (trunc b) ∧
      (valueOf (fracPart b) ≠ 0 → fSign (fracPart b) = fSign b) ∧ (valueOf (fracPart b) = 0 → fracPart b = 0#32) := by
  obtain ⟨hs, -, c, j, hm, -, hc, hj⟩ := trunc_finite hf
  obtain ⟨hval, -, hsign⟩ := bits32_spec _ c j (natAbs_valueOf_sub hs hm) hc hj
  rw [fracPart, if_pos hf, fsub]
  split
  next heq =>
    have hzero : valueOf 0#32 = 0 := by decide
    exact ⟨by omega, fun h => absurd hzero h, fun _ => rfl⟩
  next hne =>
    refine ⟨hval, fun _ => ?_, fun h => absurd (hval.symm.trans h) (sub_ne_zero.mpr hne)⟩
    exact hsign.trans (decide_valueOf_sub_neg hs (by omega) hne)

/-! ### FPARTS32 -/

/-- FPARTS32 succeeds on every operand with the two parts as patterns and 0 in the other results (R149). -/
theorem exec_fparts32_completes (s : State) :
    ∃ t, exec .fparts32 s = .next t ∧ CompletedOk s t ∧ t.res0.toNat = (trunc (operand32 s)).toNat ∧
      t.res1.toNat = (fracPart (operand32 s)).toNat ∧ t.res2 = 0 ∧ t.res3 = 0 ∧ t.res4 = 0 ∧ t.res5 = 0 :=
  ⟨complete (zext64 (trunc (operand32 s))) (zext64 (fracPart (operand32 s))) 0 0 0 0 s, rfl, completedOk_complete ..,
    toNat_zext (by norm_num) _, toNat_zext (by norm_num) _, rfl, rfl, rfl, rfl⟩

/-- Settles O44: the parts are `trunc` and `fracPart`, whose values add up to the operand's. -/
theorem fparts32SplitsFiniteValues : Obligations.Fparts32SplitsFiniteValues := by
  refine ⟨decodeWord_eq_ok.mpr rfl, fun s hf => ?_⟩
  obtain ⟨t, ht, hok, h0, h1, h2, h3, h4, h5⟩ := exec_fparts32_completes s
  obtain ⟨hsign, hfin, -⟩ := trunc_finite hf
  obtain ⟨hval, hfsign, hfzero⟩ := fracPart_exact hf
  exact ⟨t, _, _, ht, hok, h0, h1, h2, h3, h4, h5, hfin, (fracPart_finite hf).1, valueOf_trunc hf,
    by rw [hval]; omega, hsign, hfsign, hfzero⟩

/-- Settles O45: the fractional part is a draw; the integer part is the infinity itself or another draw. -/
theorem fparts32PropagatesNaN : Obligations.Fparts32PropagatesNaN := by
  intro s hf
  obtain ⟨t, ht, hok, h0, h1, h2, h3, h4, h5⟩ := exec_fparts32_completes s
  refine ⟨t, _, _, ht, hok, h0, h1, h2, h3, h4, h5, ?_, trunc_of_isInf, fun hnan => ?_⟩
  · rw [fracPart, if_neg (Bool.not_eq_true _ ▸ hf)]
    exact isNaN_nanOut _ _
  · rw [trunc_of_isNaN hnan]
    exact isNaN_nanOut _ _

end Sys2Proof.Proofs
end

section
/-! decimal_fixed_scale_decomposer: the fields of DCOMP128, the parts of DPARTS128 and the value they rebuild (R170 to R177). -/

namespace Sys2Proof.Proofs

open Sys2Proof.Machine Sys2Proof.Laws

/-! ### The parts of an operand, in its fields -/

theorem operandScale_le_of_valid {s : State} (h : OperandValid s) : operandScale s ≤ 28 := by
  obtain ⟨-, -, hscale⟩ := h
  exact hscale

/-- A malformed operand fails the check (R171). -/
theorem checkDecimal_of_not_valid {s : State} (h : ¬ OperandValid s) :
    checkDecimal (operandDecimal s) = .error .malformedEncoding :=
  (checkDecimal_cases _).resolve_left (mt (checkDecimal_operand s).mp h)

/-- The sign flag as a number (R76). -/
theorem toNat_decSign_operand (s : State) : (decSign (operandDecimal s)).toNat = operandSign s := by
  rw [decSign_operand]
  rcases operandSign_cases s with h | h <;> rw [h] <;> rfl

theorem decIntegerPart_operand (s : State) : decIntegerPart (operandDecimal s) = operandSig s / 10 ^ operandScale s := by
  rw [decIntegerPart, decSig_operand, decScale_operand]

theorem decFracInteger_operand (s : State) : decFracInteger (operandDecimal s) = operandSig s % 10 ^ operandScale s := by
  rw [decFracInteger_eq_mod, decSig_operand, decScale_operand]

/-- Both parts of a significand fit where the significand does (R174). -/
theorem operandSig_parts_lt (s : State) (n : Nat) : operandSig s / n < 2 ^ 96 ∧ operandSig s % n < 2 ^ 96 :=
  ⟨(Nat.div_le_self _ _).trans_lt (operandSig_lt s), (Nat.mod_le _ _).trans_lt (operandSig_lt s)⟩

/-- For sign 0 the fractional part is fractionalPartAsInteger at the operand's scale (R175). -/
theorem fraction_of_nonnegative {s : State} (h : operandSign s = 0) :
    fracSig (operandDecimal s) = operandSig s % 10 ^ operandScale s ∧ (fracSign (operandDecimal s)).toNat = 0 := by
  have hsign : decSign (operandDecimal s) = false := by rw [decSign_operand, h]; rfl
  have hfrac : fracSign (operandDecimal s) = false := by rw [fracSign, hsign, Bool.false_and]
  exact ⟨by rw [fracSig_of_fracSign_false hfrac, decFracInteger_operand], by rw [hfrac]; rfl⟩

/-- For sign 1 the fractional part's magnitude is the significand plus the scaled integer part; the sign is 1 unless that is 0
(R175). -/
theorem fraction_of_negative {s : State} (h : operandSign s = 1) :
    fracSig (operandDecimal s) = operandSig s + operandSig s / 10 ^ operandScale s * 10 ^ operandScale s ∧
      (fracSign (operandDecimal s)).toNat = if operandSig s = 0 then 0 else 1 := by
  have hsign : decSign (operandDecimal s) = true := by rw [decSign_operand, h]; rfl
  have hsig : fracSig (operandDecimal s) = operandSig s + operandSig s / 10 ^ operandScale s * 10 ^ operandScale s := by
    rw [fracSig, if_pos hsign, decSig_operand, decIntegerPart_operand, decScale_operand]
  refine ⟨hsig, ?_⟩
  rw [fracSign, hsign, hsig, Bool.true_and]
  split
  next hzero => rw [hzero, Nat.zero_div]; simp
  next hpos => simp [hpos]

/-- An unrepresentable fractional part is one whose significand needs more than 96 bits (R175, R204). -/
theorem fractionUnrepresentable_iff (s : State) :
    FractionUnrepresentable s ↔ 2 ^ 96 - 1 < fracSig (operandDecimal s) := by
  rcases operandSign_cases s with h | h
  · have hlt : operandSig s % 10 ^ operandScale s < 2 ^ 96 := (operandSig_parts_lt s _).2
    rw [FractionUnrepresentable, h, (fraction_of_nonnegative h).1]
    omega
  · rw [FractionUnrepresentable, (fraction_of_negative h).1]
    exact and_iff_right h

theorem fracDecimal_of_unrepresentable {s : State} (h : FractionUnrepresentable s) :
    fracDecimal (operandDecimal s) = .error .domainError := by
  rw [fracDecimal, if_pos ((fractionUnrepresentable_iff s).mp h)]

/-- A representable fractional part has a 96-bit significand and is packed at the operand's scale (R175). -/
theorem fracDecimal_of_representable {s : State} (h : ¬ FractionUnrepresentable s) :
    fracSig (operandDecimal s) < 2 ^ 96 ∧
      fracDecimal (operandDecimal s) =
        .ok (packDecimal (fracSign (operandDecimal s)) (operandScale s) (fracSig (operandDecimal s))) := by
  rw [fractionUnrepresentable_iff] at h
  rw [fracDecimal, if_neg h, decScale_operand]
  exact ⟨by omega, rfl⟩

/-! ### The commands -/

/-- DCOMP128 on a valid operand completes with its fields (R173). -/
theorem exec_dcomp128_of_valid {s : State} (h : OperandValid s) :
    exec .dcomp128 s = .next (complete (low64 (operandSig s)) (high32 (operandSig s)) (BitVec.ofNat 64 (operandScale s))
      (boolWord (decSign (operandDecimal s))) 0 0 s) := by
  rw [exec, execDcomp128, (checkDecimal_operand s).mpr h, decSig_operand, decScale_operand]

/-- DPARTS128 on a valid operand whose fractional part has the encoding `f` (R176). -/
theorem exec_dparts128_of_fracDecimal {s : State} {f : Bits128} (hv : OperandValid s)
    (hf : fracDecimal (operandDecimal s) = .ok f) :
    exec .dparts128 s = .next (complete (low64 (operandSig s / 10 ^ operandScale s))
      (high32 (operandSig s / 10 ^ operandScale s)) (f.extractLsb' 0 64) (f.extractLsb' 64 64)
      (low64 (operandSig s % 10 ^ operandScale s)) (high32 (operandSig s % 10 ^ operandScale s)) s) := by
  rw [exec, execDparts128, (checkDecimal_operand s).mpr hv, hf, decIntegerPart_operand, decFracInteger_operand]

/-- With the encoding `f` in RES2 and RES3, the two integers read back from the other results (R77, R176). -/
theorem exec_dparts128_results {s : State} {f : Bits128} (hv : OperandValid s)
    (hf : fracDecimal (operandDecimal s) = .ok f) :
    ∃ t, exec .dparts128 s = .next t ∧ CompletedOk s t ∧ result01 t = operandSig s / 10 ^ operandScale s ∧
      result45 t = operandSig s % 10 ^ operandScale s ∧ t.res2 = f.extractLsb' 0 64 ∧ t.res3 = f.extractLsb' 64 64 := by
  obtain ⟨hint, hmod⟩ := operandSig_parts_lt s (10 ^ operandScale s)
  exact ⟨_, exec_dparts128_of_fracDecimal hv hf, completedOk_complete .., high32_low64 _ hint, high32_low64 _ hmod,
    rfl, rfl⟩

/-- Settles O48: the check is `OperandValid`, and the decimal's fields are those of the operand registers. -/
theorem dcomp128ExtractsTheComponents : Obligations.Dcomp128ExtractsTheComponents := by
  refine ⟨decodeWord_eq_ok.mpr rfl, fun s hv => ?valid, fun s hv => ?malformed⟩
  case valid =>
    have hscale := operandScale_le_of_valid hv
    refine ⟨_, exec_dcomp128_of_valid hv, completedOk_complete .., high32_low64 _ (operandSig_lt s), ?_,
      (boolWord_toNat _).trans (toNat_decSign_operand s), rfl, rfl⟩
    rw [complete_res2, BitVec.toNat_ofNat]
    omega
  case malformed =>
    exact ⟨_, by rw [exec, execDcomp128, checkDecimal_of_not_valid hv], completedError_raiseError .malformedEncoding s⟩

/-- Settles O51: RES2 and RES3 hold a packed decimal, which reads back as an operand; its fields depend on the sign. -/
theorem dparts128SplitsTheDecimal : Obligations.Dparts128SplitsTheDecimal := by
  refine ⟨decodeWord_eq_ok.mpr rfl, fun s hv hr => ?parts, fun s hv => ?malformed, fun s hv hr => ?domain⟩
  case parts =>
    have hscale := operandScale_le_of_valid hv
    obtain ⟨hlt, hf⟩ := fracDecimal_of_representable hr
    obtain ⟨t, ht, hok, hint, hmod, hlo, hhi⟩ := exec_dparts128_results hv hf
    obtain ⟨hvalid, hk, hsig, hsign⟩ := operand_of_packDecimal (fractionAsOperand t) _ _ _ hscale hlt hlo hhi
    refine ⟨t, ht, hok, hint, hmod, hvalid, hk, ?_⟩
    rw [hsig, hsign]
    exact ⟨fraction_of_nonnegative, fraction_of_negative⟩
  case malformed =>
    exact ⟨_, by rw [exec, execDparts128, checkDecimal_of_not_valid hv], completedError_raiseError .malformedEncoding s⟩
  case domain =>
    exact ⟨_, by rw [exec, execDparts128, (checkDecimal_operand s).mpr hv, fracDecimal_of_unrepresentable hr],
      completedError_raiseError .domainError s⟩

/-! ### The value -/

/-- An error completion with a code from 1 to 15 has ERR not 0 (R24, R201). -/
theorem statusErr_ne_zero_of_completedError {k : Nat} {s t : State} (h : CompletedError k s t) (h0 : 0 < k) (hk : k < 16) :
    statusErr t.status ≠ 0 := by
  obtain ⟨hstatus, -⟩ := h
  intro hzero
  have herr : (statusErr t.status).toNat = k := by
    rw [statusErr, BitVec.extractLsb'_toNat, hstatus, Nat.shiftRight_zero]
    omega
  rw [hzero] at herr
  exact h0.ne herr

/-- DPARTS128 ends with ERR = 0 only for a valid operand with a representable fractional part (R176). -/
theorem representable_of_dparts128_ok {s t : State} (h : exec .dparts128 s = .next t) (herr : statusErr t.status = 0) :
    OperandValid s ∧ ¬ FractionUnrepresentable s := by
  obtain ⟨-, -, hmalformed, hdomain⟩ := dparts128SplitsTheDecimal
  have hnoerror {k : Nat} (h0 : 0 < k) (hk : k < 16) : ¬ ∃ u, exec .dparts128 s = .next u ∧ CompletedError k s u := by
    rintro ⟨u, hu, hc⟩
    rw [h] at hu
    cases hu
    exact statusErr_ne_zero_of_completedError hc h0 hk herr
  have hvalid : OperandValid s := by
    by_contra hv
    exact hnoerror (by norm_num) (by norm_num) (hmalformed s hv)
  exact ⟨hvalid, fun hr => hnoerror (by norm_num) (by norm_num) (hdomain s hvalid hr)⟩

/-- What DPARTS128 leaves whenever it ends with ERR = 0 (R176). -/
theorem dparts128_parts_of_ok {s t : State} (h : exec .dparts128 s = .next t) (herr : statusErr t.status = 0) :
    result01 t = operandSig s / 10 ^ operandScale s ∧ result45 t = operandSig s % 10 ^ operandScale s ∧
      OperandValid (fractionAsOperand t) ∧ operandScale (fractionAsOperand t) = operandScale s ∧
      (operandSign s = 0 → operandSig (fractionAsOperand t) = operandSig s % 10 ^ operandScale s ∧
        operandSign (fractionAsOperand t) = 0) ∧
      (operandSign s = 1 →
        operandSig (fractionAsOperand t) =
          operandSig s + operandSig s / 10 ^ operandScale s * 10 ^ operandScale s ∧
        operandSign (fractionAsOperand t) = if operandSig s = 0 then 0 else 1) := by
  obtain ⟨hvalid, hrep⟩ := representable_of_dparts128_ok h herr
  obtain ⟨-, hparts, -⟩ := dparts128SplitsTheDecimal
  obtain ⟨u, hu, -, hfacts⟩ := hparts s hvalid hrep
  rw [h] at hu
  cases hu
  exact hfacts

/-- A decimal's value in units of its scale is its signed significand (R170). -/
theorem decimalValue_mul_pow (sig scale sign : Nat) : decimalValue sig scale sign * 10 ^ scale = (-1) ^ sign * sig :=
  div_mul_cancel₀ _ (by positivity)

/-- The value of the decimal in RES2 and RES3, which R177 compares with the operand's. -/
def fractionValue (t : State) : ℚ :=
  decimalValue (operandSig (fractionAsOperand t)) (operandScale (fractionAsOperand t)) (operandSign (fractionAsOperand t))

/-- The fractional part in units of the operand's scale: fractionalPartAsInteger for sign 0, and for sign 1 minus the sum of
the significand and the scaled integer part (R175). -/
theorem fractionValue_mul_pow {s t : State} (h : exec .dparts128 s = .next t) (herr : statusErr t.status = 0) :
    (operandSign s = 0 → fractionValue t * 10 ^ operandScale s = result45 t) ∧
      (operandSign s = 1 →
        fractionValue t * 10 ^ operandScale s = -(operandSig s + result01 t * 10 ^ operandScale s)) := by
  obtain ⟨hint, hmod, -, hscale, hnonneg, hneg⟩ := dparts128_parts_of_ok h herr
  rw [fractionValue, hscale, decimalValue_mul_pow]
  refine ⟨fun hsign => ?_, fun hsign => ?_⟩
  · obtain ⟨hfsig, hfsign⟩ := hnonneg hsign
    rw [hfsig, hfsign, hmod, pow_zero, one_mul]
  · obtain ⟨hfsig, hfsign⟩ := hneg hsign
    rw [hfsig, hfsign, hint]
    split
    next hzero => rw [hzero]; simp
    next => push_cast; ring

/-- Settles O52: in units of the operand's scale all the values are integers, and the claims are equations between them. -/
theorem decimalPartsReconstructTheValue : Obligations.DecimalPartsReconstructTheValue := by
  intro s t ht herr fv hfv
  obtain rfl : fv = fractionValue t := hfv
  obtain ⟨hint, hmod, hvalid, hscale, hnonneg, -⟩ := dparts128_parts_of_ok ht herr
  obtain ⟨hfnonneg, hfneg⟩ := fractionValue_mul_pow ht herr
  have hsplit : result01 t * 10 ^ operandScale s + result45 t = operandSig s := by
    rw [hint, hmod, Nat.div_add_mod']
  refine ⟨hsplit, ?value, fun hsign => (hfnonneg hsign).symm, ?notScaled, ?recompose⟩
  case value =>
    have hsplitQ : (result01 t : ℚ) * 10 ^ operandScale s + result45 t = operandSig s := by exact_mod_cast hsplit
    refine mul_right_cancel₀ (b := (10 : ℚ) ^ operandScale s) (by positivity) ?_
    rw [decimalValue_mul_pow, add_mul]
    rcases operandSign_cases s with hsign | hsign
    · rw [hfnonneg hsign, hsign, hsplitQ, pow_zero, one_mul]
    · rw [hfneg hsign, hsign]; ring
  case notScaled =>
    intro hsign hsig
    have hpos : (0 : ℚ) < operandSig s := by exact_mod_cast Nat.pos_of_ne_zero hsig
    have hlt : fractionValue t * 10 ^ operandScale s < 0 := by
      rw [hfneg hsign]
      exact neg_neg_of_pos (add_pos_of_pos_of_nonneg hpos (mul_nonneg (Nat.cast_nonneg _) (by positivity)))
    exact (hlt.trans_le (Nat.cast_nonneg _)).ne'
  case recompose =>
    intro hsign
    obtain ⟨hfsig, hfsign⟩ := hnonneg hsign
    obtain ⟨-, hextract, -⟩ := dcomp128ExtractsTheComponents
    obtain ⟨u, hu, ⟨hstatus, -⟩, husig, huscale, husign, -, -⟩ := hextract (fractionAsOperand t) hvalid
    rw [hmod]
    exact ⟨hfsig, hscale, u, hu, hstatus, husig.trans hfsig, huscale.trans hscale,
      BitVec.eq_of_toNat_eq (husign.trans hfsign)⟩

end Sys2Proof.Proofs
end

section
/-! The outcome of a command: each error has one cause in the command and its operand, and a command without a cause succeeds
(R201 to R208). -/

namespace Sys2Proof.Proofs

open Sys2Proof.Machine Sys2Proof.Laws

/-! ### Errors and their causes -/

/-- What makes a command end in an error, the malformed operand being reported first (R203 to R205, R208). No command raises
IllegalCommand. -/
def ErrorCause (i : Instr) (s : State) : OpError → Prop
  | .malformedEncoding => (i = .dcomp128 ∨ i = .dparts128) ∧ ¬ OperandValid s
  | .domainError => i = .dparts128 ∧ OperandValid s ∧ FractionUnrepresentable s
  | .illegalCommand => False

/-- The malformed operands of R205. -/
theorem not_operandValid_iff (s : State) :
    ¬ OperandValid s ↔
      operandScale s > 28 ∨ s.opndHi.toNat / 2 ^ 32 % 2 ^ 16 ≠ 0 ∨ s.opndHi.toNat / 2 ^ 56 % 2 ^ 7 ≠ 0 := by
  rw [OperandValid]
  omega

/-- Nothing makes a command fail when a decimal operand is valid and a fractional part is representable. -/
theorem not_errorCause_of_valid {i : Instr} {s : State} (hv : i = .dcomp128 ∨ i = .dparts128 → OperandValid s)
    (hr : i = .dparts128 → ¬ FractionUnrepresentable s) (e : OpError) : ¬ ErrorCause i s e := by
  cases e with
  | malformedEncoding => exact fun ⟨hi, hnot⟩ => hnot (hv hi)
  | domainError => exact fun ⟨hi, _, hu⟩ => hr hi hu
  | illegalCommand => exact id

/-! ### Completions -/

/-- The STATUS words of the three errors differ (R25, R201). -/
theorem statusError_injective {e e' : OpError} (h : statusError e = statusError e') : e = e' := by
  have hcode : errCode e = errCode e' := by rw [← statusErr_statusError, h, statusErr_statusError]
  cases e <;> cases e' <;> simp [errCode] at hcode ⊢

/-- An error completion writes the STATUS word of its error (R201). -/
theorem status_of_completedError {e : OpError} {s t : State} (h : CompletedError (errCode e).toNat s t) :
    t.status = statusError e := by
  obtain ⟨hstatus, -⟩ := h
  apply BitVec.eq_of_toNat_eq
  rw [hstatus]
  cases e <;> rfl

/-- Every command completes with success or with an error it can raise (R200 to R203). -/
theorem exec_completes (i : Instr) (s : State) : ∃ t, exec i s = .next t ∧
    (CompletedOk s t ∨ ∃ e, canRaise i e ∧ CompletedError (errCode e).toNat s t) := by
  rcases exec_cases i s with ⟨r0, r1, r2, r3, r4, r5, h⟩ | ⟨e, he, h⟩
  · exact ⟨_, h, .inl (completedOk_complete ..)⟩
  · exact ⟨_, h, .inr ⟨e, he, completedError_raiseError e s⟩⟩

/-- Only the two decimal commands can raise an error (R203). -/
theorem decimal_of_canRaise {i : Instr} {e : OpError} (h : canRaise i e) : i = .dcomp128 ∨ i = .dparts128 := by
  cases i with
  | dcomp128 => exact .inl rfl
  | dparts128 => exact .inr rfl
  | _ => exact h.elim

/-- The six commands that read no decimal complete with success (R203). -/
theorem exec_completedOk_of_not_decimal {i : Instr} (h : ¬ (i = .dcomp128 ∨ i = .dparts128)) (s : State) :
    ∃ t, exec i s = .next t ∧ CompletedOk s t := by
  obtain ⟨t, ht, hok | ⟨e, he, -⟩⟩ := exec_completes i s
  · exact ⟨t, ht, hok⟩
  · exact absurd (decimal_of_canRaise he) h

/-- What holds of some state the command answers holds of the state it answers. -/
theorem of_exec_next {i : Instr} {s t : State} {P : State → Prop} (ht : exec i s = .next t)
    (h : ∃ u, exec i s = .next u ∧ P u) : P t := by
  obtain ⟨u, hu, hP⟩ := h
  rw [ht] at hu
  cases hu
  exact hP

/-- A cause of error makes the command end in that error (R204, R205). -/
theorem completedError_of_errorCause {i : Instr} {s t : State} {e : OpError} (ht : exec i s = .next t)
    (h : ErrorCause i s e) : CompletedError (errCode e).toNat s t := by
  obtain ⟨-, -, hdcomp⟩ := dcomp128ExtractsTheComponents
  obtain ⟨-, -, hdparts, hdomain⟩ := dparts128SplitsTheDecimal
  apply of_exec_next ht
  cases e with
  | malformedEncoding =>
    obtain ⟨rfl | rfl, hv⟩ := h
    · exact hdcomp s hv
    · exact hdparts s hv
  | domainError =>
    obtain ⟨rfl, hv, hu⟩ := h
    exact hdomain s hv hu
  | illegalCommand => exact h.elim

/-- A command with no cause of error completes with success (R202). -/
theorem completedOk_of_no_errorCause {i : Instr} {s t : State} (ht : exec i s = .next t)
    (h : ∀ e, ¬ ErrorCause i s e) : CompletedOk s t := by
  apply of_exec_next ht
  by_cases hi : i = .dcomp128 ∨ i = .dparts128
  · have hv : OperandValid s := not_not.mp fun hv => h .malformedEncoding ⟨hi, hv⟩
    rcases hi with rfl | rfl
    · exact ⟨_, exec_dcomp128_of_valid hv, completedOk_complete ..⟩
    · obtain ⟨-, hf⟩ := fracDecimal_of_representable fun hu => h .domainError ⟨rfl, hv, hu⟩
      exact ⟨_, exec_dparts128_of_fracDecimal hv hf, completedOk_complete ..⟩
  · exact exec_completedOk_of_not_decimal hi s

/-- STATUS reports an error exactly for the error's cause (R203 to R205). -/
theorem status_eq_statusError_iff {i : Instr} {s t : State} (ht : exec i s = .next t) (e : OpError) :
    t.status = statusError e ↔ ErrorCause i s e := by
  refine ⟨fun hstatus => ?_, fun h => status_of_completedError (completedError_of_errorCause ht h)⟩
  by_cases h : ∃ e', ErrorCause i s e'
  · obtain ⟨e', he'⟩ := h
    have hstatus' : t.status = statusError e' := status_of_completedError (completedError_of_errorCause ht he')
    exact statusError_injective (hstatus'.symm.trans hstatus) ▸ he'
  · obtain ⟨hok, -⟩ := completedOk_of_no_errorCause ht (not_exists.mp h)
    exact absurd (hok.symm.trans hstatus) (by cases e <;> decide)

/-! ### The causes of R204 and R205 -/

/-- Settles O49: the cause of MALFORMED_ENCODING, in the fields of the operand. -/
theorem malformedEncodingExactlyForInvalidDecimals : Obligations.MalformedEncodingExactlyForInvalidDecimals := by
  intro i s
  obtain ⟨t, ht, -⟩ := exec_completes i s
  refine ⟨t, ht, ?_⟩
  rw [← not_operandValid_iff]
  exact status_eq_statusError_iff ht .malformedEncoding

/-- Settles O50: the cause of DOMAIN_ERROR, whose completion clears the results. -/
theorem domainErrorHasOneCause : Obligations.DomainErrorHasOneCause := by
  intro i s
  obtain ⟨t, ht, -⟩ := exec_completes i s
  have hcause := status_eq_statusError_iff ht .domainError
  exact ⟨t, ht, hcause, fun hstatus => completedError_of_errorCause ht (hcause.mp hstatus)⟩

/-! ### The outcomes of a command and of a CMD write -/

/-- Settles O27: by the errors each command can raise; a word that does not decode is an illegal word (O6). -/
theorem commandsProduceOnlyTheirListedOutcomes : Obligations.CommandsProduceOnlyTheirListedOutcomes := by
  refine ⟨fun i s h1 h2 => exec_completedOk_of_not_decimal (not_or.mpr ⟨h1, h2⟩) s, fun s => ?dcomp, fun s => ?dparts,
    fun s w r hr => everyOtherWordIsIllegal s w (decodeWord_error_iff.mp ⟨r, hr⟩)⟩
  case dcomp =>
    obtain ⟨t, ht, hok | ⟨e, he, herr⟩⟩ := exec_completes .dcomp128 s
    · exact ⟨t, ht, .inl hok⟩
    · cases e with
      | malformedEncoding => exact ⟨t, ht, .inr herr⟩
      | _ => exact he.elim
  case dparts =>
    obtain ⟨t, ht, hok | ⟨e, he, herr⟩⟩ := exec_completes .dparts128 s
    · exact ⟨t, ht, .inl hok⟩
    · cases e with
      | domainError => exact ⟨t, ht, .inr (.inl herr)⟩
      | malformedEncoding => exact ⟨t, ht, .inr (.inr herr)⟩
      | illegalCommand => exact he.elim

/-- Different commands have different words (R71). -/
theorem encode_injective {i j : Instr} (h : encode i = encode j) : i = j :=
  Except.ok.inj ((decodeWord_eq_ok.mpr rfl).symm.trans (decodeWord_eq_ok.mpr h))

/-- Settles O26: an illegal word is O6; a legal word runs its command, whose outcome is by cause. -/
theorem oneOutcomeByPriority : Obligations.OneOutcomeByPriority := by
  intro s w
  cases hdec : decodeWord w with
  | error r =>
    have hw := decodeWord_error_iff.mp ⟨r, hdec⟩
    obtain ⟨t, ht, hstatus, -⟩ := everyOtherWordIsIllegal s w hw
    refine ⟨t, ht, fun _ => BitVec.eq_of_toNat_eq hstatus, ?_⟩
    simp only [List.mem_cons, not_or] at hw
    simp only [hw, List.mem_cons, or_self, false_imp_iff, and_self]
  | ok i =>
    obtain rfl := decodeWord_eq_ok.mp hdec
    rw [step_issue, acceptEvent_writeCmd, execute_ok hdec]
    obtain ⟨t, ht, -⟩ := exec_completes i { s with cmd := encode i, response := .accepted }
    have herr := status_eq_statusError_iff ht
    have hok (hnone) : t.status = 0x100 := (completedOk_of_no_errorCause ht hnone).1
    have hdcomp : encode i = 0x30 → i = .dcomp128 := encode_injective (j := .dcomp128)
    have hdparts : encode i = 0x31 → i = .dparts128 := encode_injective (j := .dparts128)
    refine ⟨t, ht, absurd (encode_mem i), fun hw hv => (herr .malformedEncoding).mpr ⟨hw.imp hdcomp hdparts, hv⟩,
      fun hw hv hu => (herr .domainError).mpr ⟨hdparts hw, hv, hu⟩,
      fun hw hv hr => hok (not_errorCause_of_valid (fun _ => hv) fun _ => hr), fun hw hv => ?dcomp, fun hw => ?other⟩
    case dcomp =>
      obtain rfl := hdcomp hw
      exact hok (not_errorCause_of_valid (fun _ => hv) nofun)
    case other =>
      refine hok (not_errorCause_of_valid ?_ ?_)
      · rintro (rfl | rfl) <;> exact absurd hw (by decide)
      · rintro rfl
        exact absurd hw (by decide)

end Sys2Proof.Proofs
end

section
/-! Reset, and the use of the one register set by one host or by several (R230, R231, R234, R235). -/

namespace Sys2Proof.Proofs

open Sys2Proof.Machine Sys2Proof.Laws

/-! ### Exclusive use -/

/-- A run takes a pending store of CMD first, and goes on from the completion of its word (R23, R57). -/
theorem run_succ_writeCmd {s t : State} {w : Word} {rest : List HostEvent} (h : s.pending = writeOf .cmd w :: rest)
    (hx : execute w { s with cmd := w, pending := rest, response := .accepted } = .next t) (k : Nat) :
    run (k + 1) s = run k t :=
  run_succ (((step_of_pending h).trans (acceptEvent_writeCmd w _)).trans hx) k

/-- A host's stores of both operand registers and of CMD, with register reads between and after them, run to the state `t`
that the word completes in on those operands; the last reads change only the response (R234). -/
theorem run_operands_then_command {s t : State} {lo hi w : Word} {r1 r2 r3 rest : List HostEvent}
    (hreads : ∀ e ∈ r1 ++ r2 ++ r3, ∃ r, e = readOf r)
    (hp : s.pending = writeOf .opndLo lo :: (r1 ++ writeOf .opndHi hi :: (r2 ++ writeOf .cmd w :: (r3 ++ rest))))
    (hx : execute w { s with opndLo := lo, opndHi := hi, cmd := w, pending := r3 ++ rest, response := .accepted } = .next t) :
    ∃ p, run (r1.length + r2.length + r3.length + 3) s = .next { t with pending := rest, response := p } := by
  simp only [List.forall_mem_append] at hreads
  obtain ⟨⟨hr1, hr2⟩, hr3⟩ := hreads
  obtain ⟨-, -, -, hpending, -⟩ := execute_frame hx
  -- `q1` and `q2` are what is still pending when the reads of `r1` and of `r2` are done.
  generalize hq2 : writeOf .cmd w :: (r3 ++ rest) = q2 at hp
  generalize hq1 : writeOf .opndHi hi :: (r2 ++ q2) = q1 at hp
  obtain ⟨p1, h1⟩ := run_reads r1 hr1 (r2.length + (r3.length + 1) + 1)
    { s with opndLo := lo, pending := r1 ++ q1, response := .accepted } q1 rfl
  obtain ⟨p2, h2⟩ := run_reads r2 hr2 (r3.length + 1)
    { s with opndLo := lo, opndHi := hi, pending := r2 ++ q2, response := .accepted } q2 rfl
  have hcmd := run_succ_writeCmd (s := { s with opndLo := lo, opndHi := hi, pending := q2, response := p2 }) hq2.symm hx
  obtain ⟨p3, h3⟩ := run_reads r3 hr3 0 t rest hpending
  have hfuel : r1.length + r2.length + r3.length + 3 = r1.length + (r2.length + (r3.length + 1) + 1) + 1 := by omega
  refine ⟨p3, ?_⟩
  rw [hfuel, run_writeOpndLo hp, h1, run_writeOpndHi hq1.symm, h2, hcmd]
  exact h3

/-- Settles O28: the command runs on the host's own operand registers, and what it leaves in STATUS and the results does not
depend on the pending events or on the last response. -/
theorem exclusiveUseGetsOwnResults : Obligations.ExclusiveUseGetsOwnResults := by
  intro s lo hi w i r1 r2 r3 rest hw hreads hp
  obtain ⟨u, t, hu, ht, hsame⟩ := exec_sameCompletion (i := i)
    (s := { s with opndLo := lo, opndHi := hi, cmd := w })
    (s' := { s with opndLo := lo, opndHi := hi, cmd := w, pending := r3 ++ rest, response := .accepted })
    (sameOperand_of_opnd rfl rfl i)
  have hx := (execute_ok hw _).trans ht
  obtain ⟨hlo, hhi, hcmd, -⟩ := execute_frame hx
  obtain ⟨p, hrun⟩ := run_operands_then_command hreads hp hx
  exact ⟨_, u, hrun, hu, hsame, hlo, hhi, hcmd, rfl⟩

/-! ### Shared use -/

/-- A run takes a pending store of REV64's word to CMD by reversing OPND_LO into RES0 (R104). -/
theorem run_writeRev64 {s : State} {rest : List HostEvent} (h : s.pending = writeOf .cmd 0x03 :: rest) (k : Nat) :
    run (k + 1) s =
      run k (complete (reverseLow 64 s.opndLo) 0 0 0 0 0 { s with cmd := 0x03, pending := rest, response := .accepted }) :=
  run_succ_writeCmd h ((execute_ok (i := .rev64) rfl _).trans (exec_rev (q := (.rev64, 64)) (by decide) _)) k

/-- Bit 1 reversed in 64 bits is bit 62. -/
theorem reverseLow_two : reverseLow 64 2 = 0x4000000000000000 := by
  rw [reverseLow, ← swapNetwork_eq_reverseBits (by decide)]
  decide

/-- Settles O29: the second host's store of OPND_LO replaces the first's, so both commands reverse 2, and the first host
reads that reversal. -/
theorem sharedUseCanReturnAnotherHostsResult : Obligations.SharedUseCanReturnAnotherHostsResult := by
  refine ⟨{ State.reset with
    opndLo := 2, cmd := 0x03, status := statusOk, res0 := reverseLow 64 2, response := .data (reverseLow 64 2) }, ?_,
    congrArg Response.data reverseLow_two⟩
  rw [run_writeOpndLo rfl, run_writeOpndLo rfl, run_writeRev64 rfl, run_writeRev64 rfl, run_one, step_of_pending rfl,
    acceptEvent_readOf]
  rfl

/-! ### Reset -/

/-- Settles O2: the step answers `resetBlock s`, from which the next step takes the next event. -/
theorem resetAssertionClearsTheBlock : Obligations.ResetAssertionClearsTheBlock :=
  fun s => ⟨resetBlock s, step_issue s .reset, fun r => readReg_reset r s.pending .none, resetBlock_status s,
    resetBlock_pending s, fun _ _ h => step_of_pending (s := resetBlock s) h⟩

/-- Settles O3: the step answers `resetAborting s`, in which nothing of the word is left. -/
theorem resetDuringACommandAbandonsIt : Obligations.ResetDuringACommandAbandonsIt :=
  fun s w => ⟨resetAborting s, step_issue s (.resetDuringCommand w), fun r => readReg_reset r s.pending .aborted,
    resetAborting_status s, resetAborting_response s, resetAborting_pending s⟩

end Sys2Proof.Proofs
end
